-- ==== Sys2Proof/Word.lean ====
section
/-!
DEFINITION. The word types of custom-calldata CORE: the widths of the ports (spec/30_encoding.md R60, R65)
and of the wrapped view of the operand (spec/00_scope.md R12).
-/
namespace Sys2Proof

/-- One cell of the output buffer (spec/20_memory.md R40). -/
abbrev Byte := BitVec 8

/-- `op_sel[1:0]`, the strategy's type number (spec/30_encoding.md R60). -/
abbrev Select := BitVec 2

/-- `op_value[256:0]`, the operand in two's complement (spec/30_encoding.md R60). -/
abbrev OperandWord := BitVec 257

/-- `req[258:0]`, the request seen as one word (spec/30_encoding.md R60). -/
abbrev RequestWord := BitVec 259

/-- The 256-bit unsigned words of the bit-level datapath: `lsb_in`, `msb_in`, `y` (spec/10_state.md R22). -/
abbrev Magnitude := BitVec 256

end Sys2Proof
end

