-- ==== Sys2Proof/Config.lean ====
section
/-!
DEFINITION. The parameters of spec/00_scope.md R7 and R8.  They are compile-time constants, not state and not a
configuration record (spec/10_state.md R21).  The two open parameters have no constant here: `LATENCY` is the
number of slots of `State.inFlight` (log 2) and `NINST` is the length of a bank of states (log 12).
-/
namespace Sys2Proof.Config

/-- `VW`: width of the wrapped view and of every magnitude (R7). -/
def magnitudeBits : Nat := 256

/-- `2^VW`: an integer is in range when its magnitude is below this (R8, spec/30_encoding.md R61). -/
def magnitudeBound : Nat := 2 ^ magnitudeBits

/-- `VB`: the largest `valWidth` in bytes (R7). -/
def maxValWidth : Nat := 32

/-- `EXPAND_FLAG`, bit 5 of the flag byte (R7, spec/43_meta_encoder.md R146). -/
def expandFlag : Nat := 0x20

/-- `NOT_FLAG`, bit 6 of the flag byte (R7, spec/43_meta_encoder.md R146). -/
def notFlag : Nat := 0x40

/-- `T2_MIN_EXPANSION`: ENC2 expands from this count upward (R7, spec/42_variable_length_encoder.md R127). -/
def type2MinExpansion : Nat := 32

/-- `T3_MAX_EXPANSION`: ENC3 sets a larger count to 0 (R7, spec/42_variable_length_encoder.md R131). -/
def type3MaxExpansion : Nat := 32

/-- `OPW`: width of the operand port (R8). -/
def operandBits : Nat := 257

/-- `SELW`: width of the strategy select (R8). -/
def selectBits : Nat := 2

/-- `OUTB`: number of cells of the output buffer (R8, spec/20_memory.md R40). -/
def bufferCells : Nat := 34

/-- `LENW`: width of `out_len` (R8). -/
def lengthBits : Nat := 6

/-- `CAUSEW`: width of `out_cause` (R8). -/
def causeBits : Nat := 2

end Sys2Proof.Config
end

