-- ==== Sys2Proof/Syntax.lean ====
section
/-!
DEFINITION. The instructions of custom-calldata CORE: one constructor per row of spec/opcode_table.json
(spec/00_scope.md R5, spec/30_encoding.md R62).  The operand is the integer `i` of spec/00_scope.md R12.
-/
namespace Sys2Proof

/-- The three operations, each with its integer operand (spec/30_encoding.md R61, R62). -/
inductive Instr where
  /-- `ENC1`, the plain strategy (spec/42_variable_length_encoder.md R124). -/
  | enc1 (i : Int)
  /-- `ENC2`, the zero-trimmed strategy (spec/42_variable_length_encoder.md R126). -/
  | enc2 (i : Int)
  /-- `ENC3`, the signed zero-trimmed strategy (spec/42_variable_length_encoder.md R130). -/
  | enc3 (i : Int)
deriving DecidableEq, Repr

/-- The operand of an operation. -/
def Instr.operand : Instr → Int
  | .enc1 i => i
  | .enc2 i => i
  | .enc3 i => i

/-- The type number of an operation, which is its code on `op_sel` (spec/30_encoding.md R62). -/
def Instr.select : Instr → Select
  | .enc1 _ => 1
  | .enc2 _ => 2
  | .enc3 _ => 3

end Sys2Proof
end

