-- ==== Sys2Proof/WellFormed.lean ====
section
/-!
DEFINITION. When an operation can be presented on the ports: its integer operand has a code on the 257-bit
two's-complement port, `-2^256 <= i <= 2^256 - 1` (spec/30_encoding.md R61).  The one code that is out of range,
`-2^256`, has a word of its own and is well formed; the operation it asks for ends in a fault response.
-/
namespace Sys2Proof

/-- The operand is not below the port's least value. -/
def fitsBelow (i : Int) : Bool := decide (-(2 ^ 256 : Nat) ≤ i)

/-- The operand is not above the port's greatest value. -/
def fitsAbove (i : Int) : Bool := decide (i < (2 ^ 256 : Nat))

/-- The operation has a request word (spec/30_encoding.md R60, R61). -/
def Instr.wellFormed (i : Instr) : Bool := fitsBelow i.operand && fitsAbove i.operand

end Sys2Proof
end

