-- ==== Sys2Proof/Decode.lean ====
section
/-!
DEFINITION. The request word `req[258:0]` and its decoder and encoder (spec/30_encoding.md R60 to R63, R75).
A request is not held in memory (spec/20_memory.md R40, R52): the decoder reads the word of the request ports.
It is total; the one reserved code is rejected by name.
-/
namespace Sys2Proof

/-- Why a request word is no operation. -/
inductive DecodeError where
  /-- `op_sel = 0b00` names no strategy (spec/30_encoding.md R63). -/
  | illegalStrategy
deriving DecidableEq, Repr

/-- `op_sel = req[258:257]` (spec/30_encoding.md R60). -/
def selectField (w : RequestWord) : Select := w.extractLsb' 257 2

/-- `op_value = req[256:0]` (spec/30_encoding.md R60). -/
def operandField (w : RequestWord) : OperandWord := w.extractLsb' 0 257

/-- `i = sext_257(op_value)` (spec/30_encoding.md R61). -/
def operandOf (v : OperandWord) : Int := v.toInt

/-- The code of an integer on the operand port, `op_value = v mod 2^257` (spec/30_encoding.md R74). -/
def operandCode (i : Int) : OperandWord := BitVec.ofInt 257 i

/-- `req[258:257] = op_sel`, `req[256:0] = op_value` (spec/30_encoding.md R60). -/
def requestWord (sel : Select) (v : OperandWord) : RequestWord := sel ++ v

/-- The operation map of spec/30_encoding.md R62: `op_sel` selects, whatever `op_value` holds. -/
def decode (w : RequestWord) : Except DecodeError Instr :=
  let i := operandOf (operandField w)
  match (selectField w).toNat with
  | 1 => .ok (.enc1 i)
  | 2 => .ok (.enc2 i)
  | 3 => .ok (.enc3 i)
  | _ => .error .illegalStrategy

/-- The request word of an operation (spec/30_encoding.md R60, R62, R74). -/
def encode (i : Instr) : RequestWord := requestWord i.select (operandCode i.operand)

/-- One row of the machine-readable table (spec/30_encoding.md R75): a word matches when its bits under `mask`
are those of `pattern`. -/
structure OpcodeRow where
  mnemonic : String
  mask : RequestWord
  pattern : RequestWord
deriving DecidableEq, Repr

/-- The row's pattern fits the word (spec/30_encoding.md R75). -/
def OpcodeRow.fits (r : OpcodeRow) (w : RequestWord) : Bool := w &&& r.mask == r.pattern

/-- `match = n << 257` and `mask = 3 << 257` (spec/30_encoding.md R75). -/
def opcodeRow (mnemonic : String) (n : Nat) : OpcodeRow where
  mnemonic := mnemonic
  mask := BitVec.ofNat 259 (3 <<< 257)
  pattern := BitVec.ofNat 259 (n <<< 257)

/-- The three rows of spec/opcode_table.json. -/
def opcodeRows : List OpcodeRow := [opcodeRow "ENC1" 1, opcodeRow "ENC2" 2, opcodeRow "ENC3" 3]

/-- The row of an operation. -/
def rowOf : Instr → OpcodeRow
  | .enc1 _ => opcodeRow "ENC1" 1
  | .enc2 _ => opcodeRow "ENC2" 2
  | .enc3 _ => opcodeRow "ENC3" 3

/-- The operation the decoder reads from the first `nbits` bits of `w`, the bits numbered as
spec/opcode_table.json numbers them (bit 258 is the top bit of `op_sel`).  A bit above 258 is on no port: such a
number is no request word (log 10). -/
def decodeTableWord (nbits w : Nat) : Option Instr :=
  let bits := w % 2 ^ nbits
  if bits < 2 ^ 259 then
    match decode (BitVec.ofNat 259 bits) with
    | .ok i => some i
    | .error _ => none
  else none

end Sys2Proof
end

