-- ==== Sys2Proof/Machine/State.lean ====
section
/-!
DEFINITION. The machine's state as plain data: the ports and the requests in flight (spec/30_encoding.md R60,
R65; spec/70_reset_and_hazards.md R181).  The block keeps nothing else between operations (spec/10_state.md R20).
-/
namespace Sys2Proof.Machine

/-- The output buffer's contents: (offset, byte) pairs in one canonical form, offsets strictly rising and no entry
equal to what an unlisted cell reads as, which is 0x00 (spec/20_memory.md R41; spec/70_reset_and_hazards.md R181). -/
abbrev Memory := List Host.Cell

/-- What an unlisted cell of the output buffer reads as: padding and reset value are `0x00`
(spec/20_memory.md R41, spec/70_reset_and_hazards.md R181). -/
def unlistedByte : Byte := 0x00

/-- Every listed offset is at least `low`, they rise strictly, each is a cell of the buffer, and no entry holds
the unlisted byte. -/
def Memory.wfFrom : Nat → Memory → Bool
  | _, [] => true
  | low, (a, b) :: m =>
    decide (low ≤ a) && decide (a < Config.bufferCells) && b != unlistedByte && Memory.wfFrom (a + 1) m

/-- The buffer is in canonical form. -/
def Memory.wf (m : Memory) : Bool := Memory.wfFrom 0 m

/-- A request: `op_sel` and `op_value` (spec/30_encoding.md R60). -/
structure Request where
  sel : Select
  value : OperandWord
deriving DecidableEq, Repr

/-- The input ports (spec/30_encoding.md R60; `rst`: spec/70_reset_and_hazards.md R180). -/
structure Inputs where
  /-- `rst`, the reset input.  Only a build with `LATENCY > 0` has it (spec/70_reset_and_hazards.md R180); in the
  combinational build nothing reads this pin (`State.resetActive`). -/
  rst : Bool
  /-- `op_valid`: `op_sel` and `op_value` carry a request. -/
  opValid : Bool
  /-- `op_sel[1:0]`. -/
  opSel : Select
  /-- `op_value[256:0]`. -/
  opValue : OperandWord
deriving DecidableEq, Repr

/-- The response ports (spec/30_encoding.md R65), delivered as one indivisible value (spec/20_memory.md R47). -/
structure Response where
  /-- `out_valid`: the other ports carry a response. -/
  outValid : Bool
  /-- `out_fault`: the operation faulted. -/
  outFault : Bool
  /-- `out_cause[1:0]` (spec/60_exceptions.md R160). -/
  outCause : BitVec 2
  /-- `out_len[5:0]`: number of bytes of the output sequence. -/
  outLen : BitVec 6
  /-- `out_byte[0..33]`, the output buffer (spec/20_memory.md R40). -/
  outByte : Memory
deriving DecidableEq, Repr

/-- The idle response: `out_valid = 0` and every other output port is 0 (spec/30_encoding.md R65). -/
def idleResponse : Response where
  outValid := false
  outFault := false
  outCause := 0
  outLen := 0
  outByte := []

/-- The machine's state. -/
structure State where
  /-- What the caller drives on the input ports. -/
  inputs : Inputs
  /-- The implementation's pipeline, oldest slot first: one slot per cycle of `LATENCY`, empty for a cycle in
  which no request was presented (spec/70_reset_and_hazards.md R181, R190; log 2). -/
  inFlight : List (Option Request)
  /-- What the block drives on the response ports. -/
  out : Response
deriving DecidableEq, Repr

/-- The three fault causes of the block (spec/60_exceptions.md R160).  They are reported in a response; the
machine does not stop on them (R166, R167). -/
inductive Cause where
  /-- `|i| >= 2^256` (R161). -/
  | outOfRange
  /-- `i < 0` under ENC1 or ENC2 (R162). -/
  | negativeOperand
  /-- `op_sel = 0b00` (R163). -/
  | illegalStrategy
deriving DecidableEq, Repr

/-- Where the machine stops with a fault.  None of the block's own fault causes is here: those are responses. -/
inductive Fault where
  /-- Raised by `memWrite` when it is asked to write `n` bytes from offset `addr` and `addr + n > 34`: the output
  buffer has no such cell (spec/20_memory.md R40, R42).  No operation reaches it.  Safe (log 7). -/
  | outputBufferOverrun (addr n : Nat)
deriving DecidableEq, Repr

/-- Where the model gives no meaning. -/
inductive Refusal where
  /-- Raised by `exec` for an instruction without a meaning; no arm of this model answers so.  Safe. -/
  | notModelled (mnemonic : String)
  /-- Raised by `memWrite` when it is asked for `BE(y, n)` with `n = 0` or `y >= 2^(8n)`: the spec gives `BE` no
  meaning there (spec/44_value_serializer.md R151, spec/93_implementation_defined.md U4: refuse).  No operation
  reaches it (R155).  Safe (log 6). -/
  | serialiserDomain (y n : Nat)
deriving DecidableEq, Repr

/-- Input pins with nothing presented and `rst` not asserted (log 3). -/
def quietInputs : Inputs where
  rst := false
  opValid := false
  opSel := 0
  opValue := 0

/-- The block after reset, built with `latency` cycles between request and response: nothing in flight, idle
response (spec/70_reset_and_hazards.md R180, R181, R190). -/
def State.resetWith (latency : Nat) : State where
  inputs := quietInputs
  inFlight := List.replicate latency none
  out := idleResponse

/-- The block after reset, in the combinational build `LATENCY = 0` (spec/70_reset_and_hazards.md R190; log 2). -/
def State.reset : State := State.resetWith 0

end Sys2Proof.Machine
end

