-- ==== Sys2Proof/Machine/Ops.lean ====
section
/-!
DEFINITION. The named operations over the output buffer and the ports: big-endian serialisation, the write
primitive, the fault response (what this block does instead of taking an exception), the normal response, and how
the next request is taken from the ports and the pipeline.
-/
namespace Sys2Proof.Machine

/-! ### Outcomes in sequence -/

/-- Do `f` with the value of an outcome; a fault or a refusal stays what it is. -/
def andThen {α β : Type} (o : Host.Outcome α Fault Refusal) (f : α → Host.Outcome β Fault Refusal) :
    Host.Outcome β Fault Refusal :=
  match o with
  | .next a => f a
  | .fault r => .fault r
  | .refused r => .refused r

/-! ### The output buffer -/

/-- What cell `a` holds (spec/20_memory.md R40, R41). -/
def Memory.get : Memory → Nat → Byte
  | [], _ => unlistedByte
  | (k, b) :: m, a => if k = a then b else Memory.get m a

/-- The caller's read of one cell; there is no cell beyond offset 33 (spec/20_memory.md R40).  The block itself
reads nothing (R43). -/
def Memory.read (m : Memory) (a : Nat) : Option Byte :=
  if a < Config.bufferCells then some (m.get a) else none

/-- List `b` at `a` before the entries `m`, or list nothing where `b` is what an unlisted cell reads as. -/
def Memory.cons (a : Nat) (b : Byte) (m : Memory) : Memory :=
  if b = unlistedByte then m else (a, b) :: m

/-- Set one cell, keeping the canonical form. -/
def Memory.set : Memory → Nat → Byte → Memory
  | [], a, b => Memory.cons a b []
  | (k, c) :: m, a, b =>
    if a < k then Memory.cons a b ((k, c) :: m)
    else if a = k then Memory.cons a b m
    else (k, c) :: Memory.set m a b

/-- Set the cells from `a` on to the bytes of a list, first byte at the lowest offset. -/
def Memory.setAll : Memory → Nat → List Byte → Memory
  | m, _, [] => m
  | m, a, b :: bs => Memory.setAll (m.set a b) (a + 1) bs

/-! ### Big-endian serialisation -/

/-- The domain of `BE` (spec/44_value_serializer.md R150). -/
def beDomain (y n : Nat) : Bool := decide (1 ≤ n) && decide (y < 2 ^ (8 * n))

/-- Byte `b_k` of `BE(y, n)`: `floor(y / 2^(8 * (n - 1 - k))) mod 256` (spec/44_value_serializer.md R150). -/
def beByte (y n k : Nat) : Byte := BitVec.ofNat 8 (y / 2 ^ (8 * (n - 1 - k)))

/-- `BE(y, n)`, most significant byte first; no meaning outside its domain (spec/44_value_serializer.md R150,
R151). -/
def be (y n : Nat) : Option (List Byte) :=
  if beDomain y n then some ((List.range n).map (beByte y n)) else none

/-- `MemWrite(addr, n, v)`: the `n` bytes `BE(v, n)` at offsets `addr .. addr + n - 1` (spec/20_memory.md R42).
A write beyond the last cell faults (log 7); a value outside the domain of `BE` is refused (log 6). -/
def memWrite (m : Memory) (addr n v : Nat) : Host.Outcome Memory Fault Refusal :=
  if addr + n ≤ Config.bufferCells then
    match be v n with
    | some bytes => .next (m.setAll addr bytes)
    | none => .refused (.serialiserDomain v n)
  else .fault (.outputBufferOverrun addr n)

/-! ### Responses -/

/-- The cause codes on `out_cause` (spec/60_exceptions.md R160). -/
def Cause.code : Cause → BitVec 2
  | .outOfRange => 1
  | .negativeOperand => 2
  | .illegalStrategy => 3

/-- The fault response: no byte sequence, every cell zero (spec/60_exceptions.md R166). -/
def faultResponse (c : Cause) : Response where
  outValid := true
  outFault := true
  outCause := c.code
  outLen := 0
  outByte := []

/-- The normal response with the buffer `m`, of which the first `len` cells are the output sequence
(spec/30_encoding.md R66). -/
def normalResponse (m : Memory) (len : Nat) : Response where
  outValid := true
  outFault := false
  outCause := 0
  outLen := BitVec.ofNat 6 len
  outByte := m

/-- Drive a response on the output ports. -/
def State.respond (s : State) (r : Response) : State := { s with out := r }

/-- TAKING A FAULT: the operation ends with the fault response and nothing else changes; nothing is saved, there is
no handler and control goes nowhere (spec/60_exceptions.md R166).  There is no return from it: the next request is
served as if it had not happened (R167). -/
def takeFault (c : Cause) (s : State) : Host.Outcome State Fault Refusal := .next (s.respond (faultResponse c))

/-- Cell `k` of the flattened `out_data`: `out_data[8k+7 : 8k] = out_byte[k]` (spec/30_encoding.md R65). -/
def Response.outDataFrom (r : Response) : Nat → Nat
  | 0 => 0
  | k + 1 => Response.outDataFrom r k + (r.outByte.get k).toNat * 2 ^ (8 * k)

/-- `out_data[271:0]`, the same cells as one vector (spec/30_encoding.md R65). -/
def Response.outData (r : Response) : BitVec 272 := BitVec.ofNat 272 (r.outDataFrom Config.bufferCells)

/-! ### Taking the next request -/

/-- The request as one word, `req[258:0]` (spec/30_encoding.md R60). -/
def Request.word (r : Request) : RequestWord := requestWord r.sel r.value

/-- The request a word stands for (spec/30_encoding.md R60). -/
def requestOf (w : RequestWord) : Request where
  sel := selectField w
  value := operandField w

/-- What the input ports present: a request when `op_valid = 1` (spec/30_encoding.md R60). -/
def Inputs.request (x : Inputs) : Option Request :=
  if x.opValid then some { sel := x.opSel, value := x.opValue } else none

/-- The slot that is answered in this step: the oldest one in flight, and in the combinational build what the ports
present (spec/30_encoding.md R64, spec/70_reset_and_hazards.md R190; log 2). -/
def State.fetch (s : State) : Option Request :=
  match s.inFlight with
  | [] => s.inputs.request
  | slot :: _ => slot

/-- What the ports present is accepted and the oldest slot leaves the pipeline; the block never stalls
(spec/70_reset_and_hazards.md R190). -/
def State.advance (s : State) : State := { s with inFlight := (s.inFlight ++ [s.inputs.request]).tail }

/-- The reset input is there and asserted: the block has one only if it holds requests in flight, `LATENCY > 0`
(spec/70_reset_and_hazards.md R180).  The combinational build has none, so that its `out_valid = op_valid` in every
cycle (spec/30_encoding.md R64). -/
def State.resetActive (s : State) : Bool := s.inputs.rst && !s.inFlight.isEmpty

/-- `rst` asserted: what was in flight is dropped without a response and the outputs are idle
(spec/70_reset_and_hazards.md R180, R182; log 1). -/
def State.resetCycle (s : State) : State :=
  { s with inFlight := List.replicate s.inFlight.length none, out := idleResponse }

/-- Put a request where the next step takes it from (log 10): on the ports in the combinational build, else in the
oldest slot of the pipeline, with `rst` not asserted. -/
def State.present (s : State) (r : Request) : State :=
  match s.inFlight with
  | [] => { s with inputs := { s.inputs with opValid := true, opSel := r.sel, opValue := r.value } }
  | _ :: rest => { s with inputs := { s.inputs with rst := false }, inFlight := some r :: rest }

/-- The caller drives the input ports (spec/30_encoding.md R60). -/
def State.drive (s : State) (x : Inputs) : State := { s with inputs := x }

end Sys2Proof.Machine
end

