-- ==== Sys2Proof/Machine/Operands.lean ====
section
/-!
DEFINITION. The views of the operand: the signed integer `i` itself, its sign, its wrapped 256-bit view, the range
test (spec/00_scope.md R12, spec/30_encoding.md R61), and the checks every request goes through before any strategy
runs (spec/42_variable_length_encoder.md R120).
-/
namespace Sys2Proof.Machine

/-- `|i| <= 2^256 - 1` (spec/30_encoding.md R61, spec/60_exceptions.md R161). -/
def inRange (i : Int) : Bool := decide (i.natAbs < Config.magnitudeBound)

/-- The wrapped view `u = i mod 2^256` (spec/00_scope.md R12). -/
def wrapped (i : Int) : Nat := (i % (Config.magnitudeBound : Int)).toNat

/-- `neg_256(u) = (2^256 - u) mod 2^256`, for `u < 2^256` (spec/00_scope.md R10; beyond, log 13). -/
def neg256 (u : Nat) : Nat := (Config.magnitudeBound - u) % Config.magnitudeBound

/-- `not(a) = -a - 1`, in unbounded two's complement (spec/00_scope.md R10). -/
def complement (a : Int) : Int := -a - 1

/-- `a >>s n = floor(a / 2^n)` (spec/00_scope.md R10). -/
def shiftRightSigned (a : Int) (n : Nat) : Int := a / (2 ^ n : Nat)

/-- `a >>u n = floor(a / 2^n)` for `a >= 0` (spec/00_scope.md R10). -/
def shiftRightUnsigned (a n : Nat) : Nat := a / 2 ^ n

/-- `sign = (i < 0)` (spec/42_variable_length_encoder.md R121). -/
def signOf (i : Int) : Bool := decide (i < 0)

/-- The checks of an operation that takes either sign: `OutOfRange` or nothing
(spec/42_variable_length_encoder.md R120). -/
def checkSigned (i : Int) : Option Cause :=
  if inRange i then none else some .outOfRange

/-- The checks of an operation that takes no negative operand: `OutOfRange` before `NegativeOperand`
(spec/42_variable_length_encoder.md R120, spec/60_exceptions.md R165). -/
def checkUnsigned (i : Int) : Option Cause :=
  match checkSigned i with
  | some c => some c
  | none => if signOf i then some .negativeOperand else none

end Sys2Proof.Machine
end

