-- ==== Sys2Proof/Machine/Flags.lean ====
section
/-!
DEFINITION. The flag bits of the flag byte, per path of the strategies (spec/42_variable_length_encoder.md R123,
spec/10_state.md R25).  The block has no other flags and none that outlives an operation.
-/
namespace Sys2Proof.Machine

/-- The five rows of the table of spec/42_variable_length_encoder.md R123. -/
inductive Path where
  /-- `ENC1`. -/
  | plain
  /-- `ENC2` with `lsb(i) < 32`. -/
  | fallback
  /-- `ENC2` with `lsb(i) >= 32`. -/
  | trimmed
  /-- `ENC3` with `i >= 0`. -/
  | signedNonNegative
  /-- `ENC3` with `i < 0`. -/
  | signedNegative
deriving DecidableEq, Repr

/-- `expanded`: this output has two meta bytes (spec/42_variable_length_encoder.md R123). -/
def Path.expanded : Path → Bool
  | .plain => false
  | .fallback => false
  | .trimmed => true
  | .signedNonNegative => true
  | .signedNegative => true

/-- `flags` (spec/42_variable_length_encoder.md R123). -/
def Path.flags : Path → Nat
  | .plain => 0
  | .fallback => 0
  | .trimmed => Config.expandFlag
  | .signedNonNegative => Config.expandFlag
  | .signedNegative => Config.expandFlag ||| Config.notFlag

end Sys2Proof.Machine
end

