-- ==== Sys2Proof/Machine/MsbFinder.lean ====
section
/-!
DEFINITION. `msb_finder` (spec/40_msb_finder.md).
-/
namespace Sys2Proof.Machine

/-- `msb(v)`: 0 for `v = 0`, else `floor(log2(v))` (spec/40_msb_finder.md R100).  DESIGN CHOICE:
the definition is total, and what it gives for `v >= 2^256`, outside the domain of R104, is the model's (log 13); no step
evaluates it there, and a negative argument cannot be written. -/
def msb (v : Nat) : Nat := if v = 0 then 0 else Nat.log2 v

/-- The source's loop, repeated halving while the value is above 1, for at most `fuel` rounds
(spec/40_msb_finder.md R102). -/
def msbLoop : Nat → Nat → Nat → Nat
  | 0, _, r => r
  | fuel + 1, v, r => if 1 < v then msbLoop fuel (v / 2) (r + 1) else r

/-- The loop from `r = 0`; 255 rounds are enough (spec/40_msb_finder.md R102). -/
def msbByHalving (v : Nat) : Nat := msbLoop 255 v 0

/-- `valWidth = floor(msb(y) / 8) + 1` (spec/42_variable_length_encoder.md R122). -/
def byteWidth (y : Nat) : Nat := msb y / 8 + 1

end Sys2Proof.Machine
end

