-- ==== Sys2Proof/Machine/LsbFinder.lean ====
section
/-!
DEFINITION. `lsb_finder` (spec/41_lsb_finder.md).
-/
namespace Sys2Proof.Machine

/-- `iso = u & neg_256(u)` (spec/41_lsb_finder.md R110). -/
def isolate (u : Nat) : Nat := u &&& neg256 u

/-- `lsb(i) = msb(iso)` on the wrapped view of the operand (spec/41_lsb_finder.md R110).  DESIGN CHOICE: the
definition is total on the integers; for an out-of-range operand the spec gives `lsb` no value ("not part of the
spec", R115; spec/93_implementation_defined.md U9), and what this definition gives there is the model's (log 13).  No
step evaluates it there, since the range check comes first, and no statement rests on it. -/
def lsb (i : Int) : Nat := msb (isolate (wrapped i))

end Sys2Proof.Machine
end

