-- ==== Sys2Proof/Machine/MetaEncoder.lean ====
section
/-!
DEFINITION. `meta_encoder` (spec/43_meta_encoder.md).
-/
namespace Sys2Proof.Machine

/-- `META(valWidth, flags, expanded, expansionBits)`, answering `(metaWidth, meta)`
(spec/43_meta_encoder.md R140). -/
def metaEncode (valWidth flags : Nat) (expanded : Bool) (expansionBits : Nat) : Nat × Nat :=
  if expanded then (2, ((valWidth - 1) ||| flags) <<< 8 ||| expansionBits)
  else (1, valWidth - 1)

end Sys2Proof.Machine
end

