-- ==== Sys2Proof/Machine/ValueSerializer.lean ====
section
/-!
DEFINITION. `value_serializer`, the byte packer (spec/44_value_serializer.md).
-/
namespace Sys2Proof.Machine

/-- The transient record `EncodeComponents` (spec/00_scope.md R13, spec/10_state.md R22); `metaField` is `meta`. -/
structure EncodeComponents where
  valWidth : Nat
  metaWidth : Nat
  metaField : Nat
  y : Nat
deriving DecidableEq, Repr

/-- `PACK`: the meta bytes at offset 0, the value bytes after them, every other cell 0x00; answers the buffer and
the length of the sequence (spec/44_value_serializer.md R153, spec/20_memory.md R41, R42).  It validates nothing
(R154). -/
def pack (c : EncodeComponents) : Host.Outcome (Memory × Nat) Fault Refusal :=
  andThen (memWrite [] 0 c.metaWidth c.metaField) fun m =>
  andThen (memWrite m c.metaWidth c.valWidth c.y) fun m' =>
  .next (m', c.metaWidth + c.valWidth)

/-- End an operation with the normal response that carries the packed record (spec/30_encoding.md R66). -/
def emit (c : EncodeComponents) (s : State) : Host.Outcome State Fault Refusal :=
  andThen (pack c) fun p => .next (s.respond (normalResponse p.1 p.2))

end Sys2Proof.Machine
end

