-- ==== Sys2Proof/Machine/VariableLengthEncoder.lean ====
section
/-!
DEFINITION. `variable_length_encoder`: the three strategies and the meanings of the three operations
(spec/42_variable_length_encoder.md).
-/
namespace Sys2Proof.Machine

/-- What a strategy hands on for the stored magnitude `y`: its byte width (R122), the flags of its path (R123) and
`META` of them (spec/42_variable_length_encoder.md R135). -/
def handOn (p : Path) (expansionBits y : Nat) : EncodeComponents :=
  let valWidth := byteWidth y
  let metaPair := metaEncode valWidth p.flags p.expanded expansionBits
  { valWidth := valWidth, metaWidth := metaPair.1, metaField := metaPair.2, y := y }

/-! ### ENC1 -/

/-- The plain strategy: `y = i` (spec/42_variable_length_encoder.md R124), for operands that pass the checks (others:
log 13). -/
def plainComponents (i : Int) : EncodeComponents := handOn .plain 0 i.toNat

/-- `ENC1` (spec/42_variable_length_encoder.md R120, R124). -/
def execEnc1 (i : Int) (s : State) : Host.Outcome State Fault Refusal :=
  match checkUnsigned i with
  | some c => takeFault c s
  | none => emit (plainComponents i) s

/-! ### ENC2 -/

/-- The zero-trimmed strategy: below 32 trailing zeros the untouched `i` in format M1, from 32 on `y = i >>u
expansionBits` (spec/42_variable_length_encoder.md R126, R127), for operands that pass the checks (others: log
13). -/
def trimmedComponents (i : Int) : EncodeComponents :=
  let expansionBits := lsb i
  if expansionBits < Config.type2MinExpansion then handOn .fallback 0 i.toNat
  else handOn .trimmed expansionBits (shiftRightUnsigned i.toNat expansionBits)

/-- `ENC2` (spec/42_variable_length_encoder.md R120, R126). -/
def execEnc2 (i : Int) (s : State) : Host.Outcome State Fault Refusal :=
  match checkUnsigned i with
  | some c => takeFault c s
  | none => emit (trimmedComponents i) s

/-! ### ENC3 -/

/-- The shift count of ENC3: `lsb(i)`, and 0 where that exceeds 32, for either sign
(spec/42_variable_length_encoder.md R131), for an in-range operand (others: log 13). -/
def clampedExpansion (i : Int) : Nat :=
  let expansionBits := lsb i
  if Config.type3MaxExpansion < expansionBits then 0 else expansionBits

/-- The signed strategy: `y = i >>u e` for `i >= 0`, `y = not(i >>s e)` for `i < 0`
(spec/42_variable_length_encoder.md R130), for operands that pass the checks (others: log 13). -/
def signedComponents (i : Int) : EncodeComponents :=
  let e := clampedExpansion i
  if signOf i then handOn .signedNegative e (complement (shiftRightSigned i e)).toNat
  else handOn .signedNonNegative e (shiftRightUnsigned i.toNat e)

/-- `ENC3` (spec/42_variable_length_encoder.md R120, R130). -/
def execEnc3 (i : Int) (s : State) : Host.Outcome State Fault Refusal :=
  match checkSigned i with
  | some c => takeFault c s
  | none => emit (signedComponents i) s

end Sys2Proof.Machine
end

