-- ==== Sys2Proof/Machine/Dispatch.lean ====
section
/-!
DEFINITION. One arm per operation (spec/42_variable_length_encoder.md R120).
-/
namespace Sys2Proof.Machine

def exec (i : Instr) (s : State) : Host.Outcome State Fault Refusal :=
  match i with
  | .enc1 v => Sys2Proof.Machine.execEnc1 v s
  | .enc2 v => Sys2Proof.Machine.execEnc2 v s
  | .enc3 v => Sys2Proof.Machine.execEnc3 v s

end Sys2Proof.Machine
end

