-- ==== Sys2Proof/Machine/Serve.lean ====
section
/-!
DEFINITION. Serving one slot: the front end of spec/42_variable_length_encoder.md R120 (`OPERATE`).
-/
namespace Sys2Proof.Machine

/-- Serve one request: decode its word, take the `IllegalStrategy` fault on the reserved code, else run the
operation (spec/42_variable_length_encoder.md R120, spec/60_exceptions.md R163). -/
def serve (r : Request) (s : State) : Host.Outcome State Fault Refusal :=
  match decode r.word with
  | .ok i => exec i s
  | .error .illegalStrategy => takeFault .illegalStrategy s

/-- Answer a slot of the pipeline: an empty one gives the idle response (spec/30_encoding.md R65). -/
def serveSlot (slot : Option Request) (s : State) : Host.Outcome State Fault Refusal :=
  match slot with
  | some r => serve r s
  | none => .next (s.respond idleResponse)

end Sys2Proof.Machine
end

