-- ==== Sys2Proof/Machine/Step.lean ====
section
/-!
DEFINITION. One step: the ports are sampled once and one slot is answered (spec/70_reset_and_hazards.md R189,
R190; log 2).
-/
namespace Sys2Proof.Machine

/-- One step of the block. -/
def step (s : State) : Host.Outcome State Fault Refusal :=
  if s.resetActive then .next s.resetCycle else serveSlot s.fetch s.advance

/-- The request whose word is `w` stands where the next step takes its request from (log 10); of a number of more
than 259 bits only `req[258:0]` can be put on the ports. -/
def State.withFetchWord (s : State) (nbits w : Nat) : State :=
  s.present (requestOf (BitVec.ofNat 259 (w % 2 ^ nbits)))

end Sys2Proof.Machine
end

