-- ==== Sys2Proof/Machine/Datapath.lean ====
section
/-!
DEFINITION. The hardware form of the block, on the bit vectors of the ports: priority encoders, shifter,
complementer, byte lanes (spec/40_msb_finder.md R102, R106; spec/42_variable_length_encoder.md R132;
spec/43_meta_encoder.md R147; spec/44_value_serializer.md R157).  The step does not use it: it is the second,
equivalent description the spec gives, and a statement says that both answer alike.
-/
namespace Sys2Proof.Machine

/-- The highest set bit among the lowest `n` bits, and 0 where there is none: the 256-input priority encoder of
spec/40_msb_finder.md R102. -/
def priorityEncode (v : Magnitude) : Nat → Nat
  | 0 => 0
  | k + 1 => if v.getLsbD k then k else priorityEncode v k

/-- `msb_out[7:0]` (spec/40_msb_finder.md R100). -/
def msbPort (v : Magnitude) : BitVec 8 := BitVec.ofNat 8 (priorityEncode v 256)

/-- `u = op_value[255:0]` (spec/30_encoding.md R61). -/
def wrappedPort (v : OperandWord) : Magnitude := v.extractLsb' 0 256

/-- `lsb_out[7:0]` (spec/41_lsb_finder.md R110, R114). -/
def lsbPort (v : OperandWord) : BitVec 8 := msbPort (wrappedPort v &&& -wrappedPort v)

/-- What the strategy logic puts on the wires to `meta_encoder` and `value_serializer`
(spec/42_variable_length_encoder.md R135). -/
structure StrategyPort where
  y : Magnitude
  expandBit : Bool
  notBit : Bool
  count : BitVec 8
deriving DecidableEq, Repr

/-- A non-expanded value. -/
def plainPort (v : OperandWord) : StrategyPort where
  y := wrappedPort v
  expandBit := false
  notBit := false
  count := 0

/-- ENC2 on the port (spec/42_variable_length_encoder.md R126). -/
def trimmedPort (v : OperandWord) : StrategyPort :=
  let e := lsbPort v
  if e < 32 then plainPort v
  else { y := wrappedPort v >>> e, expandBit := true, notBit := false, count := e }

/-- ENC3 on the port (spec/42_variable_length_encoder.md R132): the shifter and the complementer work on all 257
bits. -/
def signedPort (v : OperandWord) : StrategyPort :=
  let e := if 32 < lsbPort v then 0 else lsbPort v
  if v.msb then
    { y := (~~~(v.sshiftRight e.toNat)).extractLsb' 0 256, expandBit := true, notBit := true, count := e }
  else { y := wrappedPort v >>> e, expandBit := true, notBit := false, count := e }

/-- The flag byte: the concatenation of 0, `flags[6]`, `flags[5]` and `m[7:3]` (spec/43_meta_encoder.md R147). -/
def flagBytePort (p : StrategyPort) : Byte :=
  0#1 ++ BitVec.ofBool p.notBit ++ BitVec.ofBool p.expandBit ++ (msbPort p.y).extractLsb' 3 5

/-- The number of value bytes, `m[7:3] + 1` (spec/40_msb_finder.md R106). -/
def widthPort (p : StrategyPort) : Nat := ((msbPort p.y).extractLsb' 3 5).toNat + 1

/-- The number of meta bytes, `1 + expanded` (spec/43_meta_encoder.md R141). -/
def metaWidthPort (p : StrategyPort) : Nat := if p.expandBit then 2 else 1

/-- Byte lane `k` of the output buffer (spec/44_value_serializer.md R157). -/
def lanePort (p : StrategyPort) (k : Nat) : Byte :=
  if k < metaWidthPort p then
    if k = 0 then flagBytePort p else p.count
  else if k < metaWidthPort p + widthPort p then
    p.y.extractLsb' (8 * (widthPort p - 1 - (k - metaWidthPort p))) 8
  else 0

/-- The response of an admitted request: 34 lanes and the length (spec/30_encoding.md R66). -/
def lanesResponse (p : StrategyPort) : Response where
  outValid := true
  outFault := false
  outCause := 0
  outLen := BitVec.ofNat 6 (metaWidthPort p + widthPort p)
  outByte := Memory.setAll [] 0 ((List.range Config.bufferCells).map (lanePort p))

/-- The whole block on the port: the checks in their order (spec/60_exceptions.md R165; on the port only the code
of `-2^256` is out of range, spec/30_encoding.md R61), then the strategy `op_sel` names. -/
def portResponse (r : Request) : Response :=
  if r.sel = 0 then faultResponse .illegalStrategy
  else if r.value.msb ∧ wrappedPort r.value = 0 then faultResponse .outOfRange
  else if r.sel ≠ 3 ∧ r.value.msb then faultResponse .negativeOperand
  else if r.sel = 1 then lanesResponse (plainPort r.value)
  else if r.sel = 2 then lanesResponse (trimmedPort r.value)
  else lanesResponse (signedPort r.value)

end Sys2Proof.Machine
end

