-- ==== Sys2Proof/Machine/Instances.lean ====
section
/-!
DEFINITION. `NINST` instances side by side (spec/60_exceptions.md R173, spec/10_state.md R30; log 12): a bank is a
list of states, one for each instance, and its length is `NINST`.
-/
namespace Sys2Proof.Machine

/-- One step of every instance of a bank. -/
def stepBank : List State → Host.Outcome (List State) Fault Refusal
  | [] => .next []
  | s :: bank => andThen (step s) fun t => andThen (stepBank bank) fun ts => .next (t :: ts)

end Sys2Proof.Machine
end

