-- ==== Sys2Proof/Safety.lean ====
section
/-!
DEFINITION. The terms the statements use: what a legal response is, what it carries, the informative inverse
mapping, and runs of the block over what a caller presents.
-/
namespace Sys2Proof

open Sys2Proof.Machine

/-! ### What a response carries -/

/-- `y = sum over k of b_k * 256^(n-1-k)`, the big-endian value of a byte sequence (spec/44_value_serializer.md
R150; `UBE` of spec/95_test_vectors.md section 5). -/
def bigEndianValue : List Byte → Nat
  | [] => 0
  | b :: bs => b.toNat * 256 ^ bs.length + bigEndianValue bs

/-- The output sequence of a response: `out_byte[0 .. out_len-1]` (spec/30_encoding.md R66). -/
def Machine.Response.bytes (r : Response) : List Byte := (List.range r.outLen.toNat).map r.outByte.get

/-- `w` is the minimal byte width of `y`, 1 for `y = 0`, and at most 32 (spec/42_variable_length_encoder.md
R122). -/
structure MinimalWidth (w y : Nat) : Prop where
  pos : 1 ≤ w
  le_32 : w ≤ 32
  fits : y < 256 ^ w
  minimal : 256 ^ (w - 1) ≤ y ∨ w = 1

/-- The response is the normal one that carries the meta bytes and then `y` in `w` big-endian bytes, with every
other cell of the buffer 0x00 and no cell beyond offset 33 (spec/20_memory.md R40, R41; spec/30_encoding.md
R66). -/
structure Delivers (r : Response) (metaBytes : List Byte) (w y : Nat) : Prop where
  valid : r.outValid = true
  no_fault : r.outFault = false
  no_cause : r.outCause = 0
  length : r.outLen.toNat = metaBytes.length + w
  meta_cells : ∀ k < metaBytes.length, r.outByte.read k = metaBytes[k]?
  value_cells : ∀ k < w, r.outByte.read (metaBytes.length + k) = some (BitVec.ofNat 8 (y / 256 ^ (w - 1 - k)))
  padding : ∀ a, metaBytes.length + w ≤ a → a < 34 → r.outByte.read a = some 0x00
  no_cell : ∀ a, 34 ≤ a → r.outByte.read a = none

/-! ### Legal ports -/

/-- What every normal response obeys: the ports of spec/30_encoding.md R66, the first byte and the length it tells
(R69, R70), and the codes the block never produces (R71). -/
structure LegalNormal (r : Response) : Prop where
  valid : r.outValid = true
  no_fault : r.outFault = false
  no_cause : r.outCause = 0
  canonical : r.outByte.wf = true
  bit7_clear : (r.outByte.get 0).getLsbD 7 = false
  not_only_with_expand : (r.outByte.get 0).getLsbD 6 = true → (r.outByte.get 0).getLsbD 5 = true
  length : r.outLen.toNat =
    (if (r.outByte.get 0).getLsbD 5 then 2 else 1) + ((r.outByte.get 0).toNat % 32 + 1)
  padding : ∀ a, r.outLen.toNat ≤ a → r.outByte.get a = 0x00
  no_leading_zero : (r.outByte.get 0).toNat % 32 ≠ 0 →
    r.outByte.get (if (r.outByte.get 0).getLsbD 5 then 2 else 1) ≠ 0x00
  parity : (r.outByte.get 0).getLsbD 5 = true → r.outByte.get 1 ≠ 0x00 →
    (r.outByte.get (r.outLen.toNat - 1)).getLsbD 0 = !(r.outByte.get 0).getLsbD 6

/-- What the response ports may show: idle, one of the three fault responses, or a legal normal response
(spec/30_encoding.md R65, R66; spec/60_exceptions.md R166). -/
def LegalResponse (r : Response) : Prop :=
  r = idleResponse ∨ (∃ c, r = faultResponse c) ∨ LegalNormal r

/-- The invariant of the block: the buffer is in canonical form and the response ports show a legal response. -/
structure Inv (s : State) : Prop where
  canonical : s.out.outByte.wf = true
  legal : LegalResponse s.out

/-! ### The informative inverse (spec/95_test_vectors.md section 5), outside the hardware -/

/-- `DEC`: the inverse mapping on the block's own outputs. -/
def inverse : List Byte → Option Int
  | [] => none
  | f :: rest =>
    let w := f.toNat % 32 + 1
    if f.getLsbD 5 then
      match rest with
      | [] => none
      | e :: value =>
        if value.length = w then
          let y : Int := (bigEndianValue value : Int)
          some ((if f.getLsbD 6 then complement y else y) * (2 ^ e.toNat : Nat))
        else none
    else if rest.length = w then some (bigEndianValue rest : Int)
    else none

/-! ### Runs -/

/-- One step with the ports driven as `x`. -/
def cycle (x : Inputs) (s : State) : Host.Outcome State Fault Refusal := step (s.drive x)

/-- The responses of a run over what the caller drives, one for each cycle; nothing where a step stops. -/
def responses : List Inputs → State → Option (List Response)
  | [], _ => some []
  | x :: xs, s =>
    match cycle x s with
    | .next t => (responses xs t).map (t.out :: ·)
    | .fault _ => none
    | .refused _ => none

/-- The response to a slot on its own: what the combinational block, fresh from reset, answers when it is presented
with that slot (spec/00_scope.md R14). -/
def answerTo (slot : Option Request) : Option Response :=
  let x : Inputs := match slot with
    | some r => { rst := false, opValid := true, opSel := r.sel, opValue := r.value }
    | none => quietInputs
  match cycle x State.reset with
  | .next t => some t.out
  | .fault _ => none
  | .refused _ => none

end Sys2Proof
end

