-- ==== Sys2Proof/Certificates/Slice0/Obligations.lean ====
section
/-!
DEFINITION. The statements for the provers, one `def Obligations.<Name> : Prop` each; OBLIGATIONS.json lists them.
-/

open Sys2Proof Sys2Proof.Machine

/-! ### Requests: encoding, decoding, operand assembly -/

/-- Every operation whose operand has a code on the port decodes back from its own request word
(spec/30_encoding.md R60, R61, R62, R74). -/
def Obligations.EncodedOperationDecodesBack : Prop :=
  ∀ i : Instr, i.wellFormed = true → decode (encode i) = .ok i

/-- Every request word that is an operation is the word of that operation, and its operand fits the port: no bit of
a word is dropped (spec/30_encoding.md R60, R61, R62). -/
def Obligations.DecodedWordEncodesBack : Prop :=
  ∀ (w : RequestWord) (i : Instr), decode w = .ok i → i.wellFormed = true ∧ encode i = w

/-- The decoder agrees with the three rows of the opcode table: the decoded operation's row is the only one that
fits, its operand is `sext_257(req[256:0])`, and the words no row fits are the rejected ones
(spec/30_encoding.md R62, R63, R75). -/
def Obligations.DecoderAgreesWithOpcodeTable : Prop :=
  ∀ w : RequestWord,
    (∀ i, decode w = .ok i →
      i.operand = operandOf (operandField w) ∧ ∀ row ∈ opcodeRows, (row.fits w = true ↔ row = rowOf i)) ∧
    (decode w = .error .illegalStrategy ↔ ∀ row ∈ opcodeRows, row.fits w = false)

/-- Six request words of spec/95_test_vectors.md section 4 decode to the operations they stand for: ENC1 255, ENC1 -5,
ENC2 2^40, ENC3 -256, ENC3 -2^256, and the reserved select. -/
def Obligations.SampleRequestWordsDecode : Prop :=
  decode 0x200000000000000000000000000000000000000000000000000000000000000FF = .ok (.enc1 255) ∧
  decode 0x3FFFFFFFFFFFFFFFFFFFFFFFFFFFFFFFFFFFFFFFFFFFFFFFFFFFFFFFFFFFFFFFB = .ok (.enc1 (-5)) ∧
  decode 0x40000000000000000000000000000000000000000000000000000010000000000 = .ok (.enc2 0x10000000000) ∧
  decode 0x7FFFFFFFFFFFFFFFFFFFFFFFFFFFFFFFFFFFFFFFFFFFFFFFFFFFFFFFFFFFFFF00 = .ok (.enc3 (-256)) ∧
  decode 0x70000000000000000000000000000000000000000000000000000000000000000 =
    .ok (.enc3 (-((2 ^ 256 : Nat) : Int))) ∧
  decode 0x00000000000000000000000000000000000000000000000000000000000000005 = .error .illegalStrategy

/-- Operand assembly (spec/30_encoding.md R61): the operand of a port code is its two's-complement value, its sign
is bit 256, the wrapped view is the low 256 bits, and the only code out of range is that of `-2^256`. -/
def Obligations.OperandAssembly : Prop :=
  ∀ v : OperandWord,
    (operandOf v = if v.msb then (v.toNat : Int) - ((2 ^ 257 : Nat) : Int) else (v.toNat : Int)) ∧
    -((2 ^ 256 : Nat) : Int) ≤ operandOf v ∧ operandOf v ≤ ((2 ^ 256 : Nat) : Int) - 1 ∧
    (signOf (operandOf v) = v.msb) ∧
    (wrapped (operandOf v) = (v.extractLsb' 0 256).toNat) ∧
    (inRange (operandOf v) = false ↔ v.msb = true ∧ v.extractLsb' 0 256 = 0) ∧
    (inRange (operandOf v) = false ↔ operandOf v = -((2 ^ 256 : Nat) : Int))

/-! ### A step -/

/-- Where `rst` is not asserted, or the build is the combinational one, which has no reset input
(spec/70_reset_and_hazards.md R180), and the oldest slot of the pipeline, with what the ports present behind it, holds a
request that decodes to `i`, the step is `exec i` on the state in which that slot has left the pipeline and the
presented one has entered it, nothing else changed; where that request has the reserved select, the step drives the
`IllegalStrategy` response on the same state (spec/60_exceptions.md R163, R166).  That `LATENCY` is the number of
slots of a pipeline is the model's reading (log 2). -/
def Obligations.StepRunsTheDecodedOperation : Prop :=
  (∀ (s : State) (r : Request) (i : Instr), s.inputs.rst = false ∨ s.inFlight = [] →
    (s.inFlight ++ [s.inputs.request]).head? = some (some r) → decode r.word = .ok i →
    step s = exec i s.advance) ∧
  (∀ (s : State) (r : Request), s.inputs.rst = false ∨ s.inFlight = [] →
    (s.inFlight ++ [s.inputs.request]).head? = some (some r) → decode r.word = .error .illegalStrategy →
    step s = .next { s.advance with out := ⟨true, true, 3, 0, []⟩ }) ∧
  (∀ s : State, s.advance.inputs = s.inputs ∧ s.advance.out = s.out ∧
    s.advance.inFlight = (s.inFlight ++ [s.inputs.request]).tail)

/-- A slot without a request gives the idle response: `out_valid = 0` and every other output port is 0
(spec/30_encoding.md R65); the pipeline moves by one slot (the model's reading of `LATENCY`, log 2). -/
def Obligations.EmptySlotGivesIdleResponse : Prop :=
  ∀ s : State, s.inputs.rst = false ∨ s.inFlight = [] → (s.inFlight ++ [s.inputs.request]).head? = some none →
    ∃ t, step s = .next t ∧ t.inputs = s.inputs ∧ t.inFlight = (s.inFlight ++ [s.inputs.request]).tail ∧
      t.out.outValid = false ∧ t.out.outFault = false ∧ t.out.outCause = 0 ∧ t.out.outLen = 0 ∧
      ∀ k < 34, t.out.outByte.read k = some 0x00

/-- A request word put where the next step takes its request from is the one that step runs, in a build of any
`LATENCY`.  Where that is, is the model's choice (log 10). -/
def Obligations.PresentedWordIsServedNext : Prop :=
  ∀ (s : State) (i : Instr), i.wellFormed = true →
    step (s.withFetchWord 264 (encode i).toNat) = exec i (s.withFetchWord 264 (encode i).toNat).advance ∧
      decodeTableWord 264 (encode i).toNat = some i

/-- Every step, and every operation on every integer operand, answers a next state: the block is total
(spec/60_exceptions.md R164, spec/00_scope.md R14). -/
def Obligations.EveryStepAnswers : Prop :=
  (∀ s : State, ∃ t, step s = .next t) ∧ ∀ (i : Instr) (s : State), ∃ t, exec i s = .next t

/-- The frame of all three operations: the input ports and the requests in flight are unchanged, no cell beyond
offset 33 comes to exist, and the response ports do not depend on what they showed before
(spec/10_state.md R20, spec/00_scope.md R15). -/
def Obligations.ExecChangesOnlyTheResponse : Prop :=
  ∀ (i : Instr) (s : State), ∃ t, exec i s = .next t ∧ t.inputs = s.inputs ∧ t.inFlight = s.inFlight ∧
    (∀ a, 34 ≤ a → t.out.outByte.read a = none) ∧
    ∀ s' : State, ∃ t', exec i s' = .next t' ∧ t'.out = t.out

/-! ### The three operations -/

/-- ENC1 (spec/42_variable_length_encoder.md R124): on `0 <= i <= 2^256 - 1` the response carries one meta byte
`valWidth - 1` and `i` in its minimal number of big-endian bytes, every other cell 0x00; `OutOfRange` and
`NegativeOperand` where its checks say so.  Input ports and requests in flight are unchanged. -/
def Obligations.Enc1Behaviour : Prop :=
  (∀ (i : Nat) (s : State), i < 2 ^ 256 →
    ∃ t w, exec (.enc1 i) s = .next t ∧ MinimalWidth w i ∧ Delivers t.out [BitVec.ofNat 8 (w - 1)] w i ∧
      t.inputs = s.inputs ∧ t.inFlight = s.inFlight) ∧
  (∀ (i : Int) (s : State), 2 ^ 256 ≤ i.natAbs →
    exec (.enc1 i) s = .next { s with out := ⟨true, true, 1, 0, []⟩ }) ∧
  (∀ (i : Int) (s : State), i < 0 → i.natAbs < 2 ^ 256 →
    exec (.enc1 i) s = .next { s with out := ⟨true, true, 2, 0, []⟩ })

/-- ENC2 (spec/42_variable_length_encoder.md R126): an operand with fewer than 32 trailing zeros (and 0) is
delivered as ENC1 delivers it; `y * 2^e` with `y` odd and `e >= 32` as two meta bytes, `0x20 + (valWidth - 1)` and
`e`, and `y` in its minimal number of bytes, at most 28; `OutOfRange` and `NegativeOperand` as for ENC1.  Input ports
and requests in flight are unchanged. -/
def Obligations.Enc2Behaviour : Prop :=
  (∀ (i : Nat) (s : State), i < 2 ^ 256 → i = 0 ∨ ¬ 2 ^ 32 ∣ i →
    ∃ t w, exec (.enc2 i) s = .next t ∧ MinimalWidth w i ∧ Delivers t.out [BitVec.ofNat 8 (w - 1)] w i ∧
      t.inputs = s.inputs ∧ t.inFlight = s.inFlight) ∧
  (∀ (y e : Nat) (s : State), y % 2 = 1 → 32 ≤ e → y * 2 ^ e < 2 ^ 256 →
    ∃ t w, exec (.enc2 ((y * 2 ^ e : Nat) : Int)) s = .next t ∧ MinimalWidth w y ∧ w ≤ 28 ∧
      Delivers t.out [BitVec.ofNat 8 (0x20 + (w - 1)), BitVec.ofNat 8 e] w y ∧
      t.inputs = s.inputs ∧ t.inFlight = s.inFlight) ∧
  (∀ (i : Int) (s : State), 2 ^ 256 ≤ i.natAbs →
    exec (.enc2 i) s = .next { s with out := ⟨true, true, 1, 0, []⟩ }) ∧
  (∀ (i : Int) (s : State), i < 0 → i.natAbs < 2 ^ 256 →
    exec (.enc2 i) s = .next { s with out := ⟨true, true, 2, 0, []⟩ })

/-- ENC3 (spec/42_variable_length_encoder.md R130, R131).  On `i = y * 2^e` with `y` odd: the meta bytes
`0x20 + (valWidth - 1)` and `e` and the value `y` when `e <= 32`, and with count 0 and the whole operand when `e > 32`.
On 0: `20 00 00`.  On `i = -(y * 2^e)` with `y` odd: the meta bytes `0x60 + (valWidth - 1)` and `e` and the complement of
the shifted operand, `y - 1`, when `e <= 32`, and with count 0 and the complement of the whole operand when `e > 32`.
`OutOfRange` where the magnitude needs more than 256 bits, of either sign, and no other fault.  Input ports and requests
in flight are unchanged. -/
def Obligations.Enc3Behaviour : Prop :=
  (∀ (y e : Nat) (s : State), y % 2 = 1 → y * 2 ^ e < 2 ^ 256 →
    ∃ t w, exec (.enc3 ((y * 2 ^ e : Nat) : Int)) s = .next t ∧
      MinimalWidth w (if e ≤ 32 then y else y * 2 ^ e) ∧
      Delivers t.out [BitVec.ofNat 8 (0x20 + (w - 1)), BitVec.ofNat 8 (if e ≤ 32 then e else 0)] w
        (if e ≤ 32 then y else y * 2 ^ e) ∧
      t.inputs = s.inputs ∧ t.inFlight = s.inFlight) ∧
  (∀ s : State, ∃ t, exec (.enc3 0) s = .next t ∧ Delivers t.out [0x20, 0x00] 1 0 ∧
    t.inputs = s.inputs ∧ t.inFlight = s.inFlight) ∧
  (∀ (y e : Nat) (s : State), y % 2 = 1 → y * 2 ^ e < 2 ^ 256 →
    ∃ t w, exec (.enc3 (-((y * 2 ^ e : Nat) : Int))) s = .next t ∧
      MinimalWidth w (if e ≤ 32 then y - 1 else y * 2 ^ e - 1) ∧
      Delivers t.out [BitVec.ofNat 8 (0x60 + (w - 1)), BitVec.ofNat 8 (if e ≤ 32 then e else 0)] w
        (if e ≤ 32 then y - 1 else y * 2 ^ e - 1) ∧
      t.inputs = s.inputs ∧ t.inFlight = s.inFlight) ∧
  (∀ (i : Int) (s : State), 2 ^ 256 ≤ i.natAbs →
    exec (.enc3 i) s = .next { s with out := ⟨true, true, 1, 0, []⟩ })

/-- For every `i` with `lsb(i) < 32` the whole response of `ENC2 i` equals the whole response of `ENC1 i`
(spec/42_variable_length_encoder.md R129); and so it does for every out-of-range `i`, to which the spec gives no
`lsb`, whatever that function gives there (log 13). -/
def Obligations.Enc2FallbackIsEnc1 : Prop :=
  ∀ (i : Int) (s : State), 2 ^ 256 ≤ i.natAbs ∨ lsb i < 32 →
    ∃ t, exec (.enc2 i) s = .next t ∧ exec (.enc1 i) s = .next t

/-- ENC2 and ENC3 give the same bytes on a non-negative operand with exactly 32 trailing zeros
(spec/30_encoding.md R72). -/
def Obligations.Enc2AndEnc3AgreeAt32 : Prop :=
  ∀ (y : Nat) (s : State), y % 2 = 1 → y * 2 ^ 32 < 2 ^ 256 →
    ∃ t, exec (.enc2 ((y * 2 ^ 32 : Nat) : Int)) s = .next t ∧ exec (.enc3 ((y * 2 ^ 32 : Nat) : Int)) s = .next t ∧
      t.out.outFault = false

/-- The length of ENC3 against ENC1 on `i >= 0` (spec/42_variable_length_encoder.md R133): with `w_i` and `w_y` the
minimal widths of the operand and of the value ENC3 stores, `len(ENC3 i) = len(ENC1 i) + 1 - (w_i - w_y)`; where the
count byte is 0 the ENC3 output is exactly one byte longer and carries the same value bytes. -/
def Obligations.Enc3LengthAgainstEnc1 : Prop :=
  ∀ (i : Nat) (s : State), i < 2 ^ 256 →
    ∃ t1 t3, exec (.enc1 i) s = .next t1 ∧ exec (.enc3 i) s = .next t3 ∧
      t3.out.outLen.toNat + byteWidth i = t1.out.outLen.toNat + 1 + byteWidth (signedComponents i).y ∧
      (t3.out.outByte.get 1 = 0x00 →
        t3.out.outLen.toNat = t1.out.outLen.toNat + 1 ∧ t3.out.bytes.drop 2 = t1.out.bytes.drop 1)

/-- Output lengths (spec/44_value_serializer.md R156): `out_len = metaWidth + valWidth`, 2 to 33 for ENC1 and the
ENC2 fallback, 3 to 30 for the expanded path of ENC2, 3 to 34 for ENC3. -/
def Obligations.OutputLengths : Prop :=
  (∀ (i : Nat) (s : State), i < 2 ^ 256 → ∃ t, exec (.enc1 i) s = .next t ∧
    t.out.outLen.toNat = 1 + byteWidth i ∧ 2 ≤ t.out.outLen.toNat ∧ t.out.outLen.toNat ≤ 33) ∧
  (∀ (i : Nat) (s : State), i < 2 ^ 256 → lsb i < 32 → ∃ t, exec (.enc2 i) s = .next t ∧
    t.out.outLen.toNat = 1 + byteWidth i ∧ 2 ≤ t.out.outLen.toNat ∧ t.out.outLen.toNat ≤ 33) ∧
  (∀ (i : Nat) (s : State), i < 2 ^ 256 → 32 ≤ lsb i → ∃ t, exec (.enc2 i) s = .next t ∧
    t.out.outLen.toNat = 2 + byteWidth (i / 2 ^ lsb i) ∧ 3 ≤ t.out.outLen.toNat ∧ t.out.outLen.toNat ≤ 30) ∧
  (∀ (i : Int) (s : State), i.natAbs < 2 ^ 256 → ∃ t, exec (.enc3 i) s = .next t ∧
    t.out.outLen.toNat = 2 + byteWidth (signedComponents i).y ∧
    3 ≤ t.out.outLen.toNat ∧ t.out.outLen.toNat ≤ 34)

/-- The operand is recoverable from the output sequence alone (spec/42_variable_length_encoder.md R136,
spec/30_encoding.md R70): on every operand an operation accepts, the inverse mapping of spec/95_test_vectors.md
section 5 gives the operand back. -/
def Obligations.OperandIsRecoverable : Prop :=
  (∀ (i : Nat) (s : State), i < 2 ^ 256 →
    (∃ t, exec (.enc1 i) s = .next t ∧ inverse t.out.bytes = some (i : Int)) ∧
    (∃ t, exec (.enc2 i) s = .next t ∧ inverse t.out.bytes = some (i : Int))) ∧
  (∀ (i : Int) (s : State), i.natAbs < 2 ^ 256 →
    ∃ t, exec (.enc3 i) s = .next t ∧ inverse t.out.bytes = some i)

/-! ### Faults -/

/-- Exactly one fault is reported, `IllegalStrategy` before `OutOfRange` before `NegativeOperand`, with the codes 3, 1
and 2 and no part of a result; a request that meets none of the conditions does not fault
(spec/60_exceptions.md R160, R163, R165). -/
def Obligations.FaultsReportedInOrder : Prop :=
  ∀ (r : Request) (s : State), ∃ t, serve r s = .next t ∧ t.inputs = s.inputs ∧ t.inFlight = s.inFlight ∧
    if r.sel = 0 then t.out = ⟨true, true, 3, 0, []⟩
    else if r.value.msb = true ∧ r.value.extractLsb' 0 256 = 0 then t.out = ⟨true, true, 1, 0, []⟩
    else if r.sel ≠ 3 ∧ r.value.msb = true then t.out = ⟨true, true, 2, 0, []⟩
    else t.out.outValid = true ∧ t.out.outFault = false ∧ t.out.outCause = 0

/-- A faulting request gives exactly one response: `out_valid = 1`, `out_fault = 1`, one of the three cause codes,
`out_len = 0`, every cell 0x00; nothing else changes (spec/60_exceptions.md R166). -/
def Obligations.FaultResponseCarriesNoBytes : Prop :=
  ∀ (r : Request) (s t : State), serve r s = .next t → t.out.outFault = true →
    t.out.outValid = true ∧ (t.out.outCause = 1 ∨ t.out.outCause = 2 ∨ t.out.outCause = 3) ∧ t.out.outLen = 0 ∧
      (∀ k < 34, t.out.outByte.read k = some 0x00) ∧ t.inputs = s.inputs ∧ t.inFlight = s.inFlight

/-- ENC3 never reports `NegativeOperand`, on any integer (spec/60_exceptions.md R162). -/
def Obligations.Enc3NeverRejectsASign : Prop :=
  ∀ (i : Int) (s : State), ∃ t, exec (.enc3 i) s = .next t ∧ t.out.outCause ≠ 2

/-! ### Purity, order, reset -/

/-- The response is a function of the request and of nothing else: whatever the ports show or hold and whatever is in
flight, serving a request completes and drives the same response (spec/00_scope.md R15, spec/60_exceptions.md
R167). -/
def Obligations.ResponseDependsOnRequestAlone : Prop :=
  ∀ r : Request, ∃ response : Response, response.outValid = true ∧
    ∀ s : State, serve r s = .next { s with out := response }

/-- Between resets, and in the combinational build always, one response leaves in each cycle, in the order in which the requests arrived, and it is the one
its own request gets on its own: with `LATENCY` slots in flight, the response of cycle `k` answers slot `k` of what
was in flight followed by what the caller presents.  A slot with a request gets a response with `out_valid = 1`, one
without gets `out_valid = 0` (spec/30_encoding.md R64, spec/70_reset_and_hazards.md R186, R190; the slots: log 2). -/
def Obligations.ResponsesLeaveInRequestOrder : Prop :=
  ∀ (xs : List Inputs) (s : State), (∀ x ∈ xs, x.rst = false) ∨ s.inFlight = [] →
    ∃ rs, responses xs s = some rs ∧ rs.length = xs.length ∧
      ∀ k < xs.length, ∃ slot r, (s.inFlight ++ xs.map Inputs.request)[k]? = some slot ∧ rs[k]? = some r ∧
        answerTo slot = some r ∧ r.outValid = slot.isSome

/-- The combinational build, `LATENCY = 0`, has no reset input and shows `out_valid = op_valid` in every cycle, whatever
stands on the `rst` pin; what it accepts it answers in the same cycle, and nothing is ever in flight
(spec/30_encoding.md R64, spec/70_reset_and_hazards.md R180, R190).  That it is the build with no slot in flight is the
model's reading (log 2). -/
def Obligations.CombinationalBuildAnswersAtOnce : Prop :=
  ∀ s : State, s.inFlight = [] →
    ∃ t, step s = .next t ∧ t.out.outValid = s.inputs.opValid ∧ answerTo s.inputs.request = some t.out ∧
      t.inFlight = [] ∧ t.inputs = s.inputs

/-- Requests in flight when `rst` is asserted get no response: in a build with `LATENCY > 0`, after the cycle with `rst`
asserted (which shows the idle response and accepts nothing: the model's choice, log 1), the run goes on as that of a
block with nothing in flight and the same `LATENCY` (spec/70_reset_and_hazards.md R180, R182).  The build with
`LATENCY = 0` has no reset input and holds no request to drop: CombinationalBuildAnswersAtOnce. -/
def Obligations.ResetDropsRequestsInFlight : Prop :=
  ∀ (x : Inputs) (xs : List Inputs) (s : State), x.rst = true → s.inFlight ≠ [] → (∀ y ∈ xs, y.rst = false) →
    ∃ rs, responses (x :: xs) s = some (idleResponse :: rs) ∧ rs.length = xs.length ∧
      ∀ k < xs.length, ∃ slot r,
        (List.replicate s.inFlight.length none ++ xs.map Inputs.request)[k]? = some slot ∧ rs[k]? = some r ∧
        answerTo slot = some r

/-- After reset no request is in flight, `out_valid`, `out_fault`, `out_cause` and `out_len` are 0 and every cell of the
buffer is 0x00, in the build with any `LATENCY` (spec/70_reset_and_hazards.md R181).  That `State.reset` is the build
with `LATENCY = 0` is the model's choice (log 2). -/
def Obligations.ResetLeavesBlockIdle : Prop :=
  State.reset = State.resetWith 0 ∧
  ∀ latency : Nat, (State.resetWith latency).inFlight.length = latency ∧
    (∀ slot ∈ (State.resetWith latency).inFlight, slot = none) ∧
    (State.resetWith latency).out.outValid = false ∧ (State.resetWith latency).out.outFault = false ∧
    (State.resetWith latency).out.outCause = 0 ∧ (State.resetWith latency).out.outLen = 0 ∧
    ∀ k < 34, (State.resetWith latency).out.outByte.read k = some 0x00

/-- The invariant holds after reset, in the build with any `LATENCY`. -/
def Obligations.ResetStateIsLegal : Prop := ∀ latency : Nat, Inv (State.resetWith latency)

/-- From every state that keeps the invariant, every step gives one that keeps it: the buffer stays in canonical form,
the response ports show an idle, a fault or a legal normal response (spec/30_encoding.md R65, R66, R69, R70, R71), and
the pipeline keeps its length (the model's reading of `LATENCY` and of the cycle with `rst` asserted, logs 1 and 2). -/
def Obligations.StepKeepsLegalPorts : Prop :=
  ∀ s t : State, Inv s → step s = .next t → Inv t ∧ t.inFlight.length = s.inFlight.length

/-- Instances share nothing (spec/60_exceptions.md R173, spec/10_state.md R30): a step of a bank is the step of each
of its instances on its own state, and it always completes.  The joint step of a bank is the model's choice (log 12). -/
def Obligations.InstancesShareNothing : Prop :=
  ∀ bank : List State, ∃ bank', stepBank bank = .next bank' ∧ bank'.length = bank.length ∧
    ∀ k < bank.length, ∃ s t, bank[k]? = some s ∧ bank'[k]? = some t ∧ step s = .next t

/-! ### The sub-blocks -/

/-- `msb` (spec/40_msb_finder.md R101): for `0 < v < 2^256` it is the unique `k` with `2^k <= v < 2^(k+1)`, at most 255;
`v < 2^(msb(v)+1)` holds at 0 too, where `msb` is 0; and `msb` is monotone. -/
def Obligations.MsbIsHighestSetBit : Prop :=
  (∀ v k : Nat, 0 < v → v < 2 ^ 256 → ((2 ^ k ≤ v ∧ v < 2 ^ (k + 1)) ↔ k = msb v)) ∧
  (∀ v : Nat, v < 2 ^ 256 → v < 2 ^ (msb v + 1) ∧ msb v ≤ 255) ∧ msb 0 = 0 ∧
  (∀ v w : Nat, v ≤ w → w < 2 ^ 256 → msb v ≤ msb w)

/-- The source's loop of repeated halving, with at most 255 rounds, computes `msb` (spec/40_msb_finder.md R102). -/
def Obligations.HalvingLoopComputesMsb : Prop := ∀ v : Nat, v < 2 ^ 256 → msbByHalving v = msb v

/-- The isolated bit (spec/41_lsb_finder.md R111): for `0 < u < 2^256`, `u & neg_256(u)` is `2^k` for the largest `k`
with `2^k` dividing `u`; for `u = 0` it is 0. -/
def Obligations.IsolatedBitIsLowestSetBit : Prop :=
  (∀ u : Nat, 0 < u → u < 2 ^ 256 → ∃ k, isolate u = 2 ^ k ∧ 2 ^ k ∣ u ∧ ¬ 2 ^ (k + 1) ∣ u) ∧ isolate 0 = 0

/-- `lsb` counts the trailing zeros of the magnitude (spec/41_lsb_finder.md R112, R113): for every in-range operand
other than 0, of either sign; `lsb(0) = 0`; and the wrapped view of a negative in-range operand is `2^256 - |i|`, never
zero. -/
def Obligations.LsbCountsTrailingZeros : Prop :=
  (∀ i : Int, i ≠ 0 → i.natAbs < 2 ^ 256 →
    2 ^ lsb i ∣ i.natAbs ∧ ¬ 2 ^ (lsb i + 1) ∣ i.natAbs ∧ lsb i ≤ 255) ∧
  lsb 0 = 0 ∧
  (∀ i : Int, i < 0 → i.natAbs < 2 ^ 256 → wrapped i = 2 ^ 256 - i.natAbs ∧ 1 ≤ wrapped i)

/-- The byte width (spec/42_variable_length_encoder.md R122, spec/40_msb_finder.md R106) is the minimal one, 1 for 0, at
most 32; it does not decrease as the value or its `msb` grows; and `valWidth - 1` is the field `msb_out[7:3]`. -/
def Obligations.ByteWidthIsMinimal : Prop :=
  (∀ y : Nat, y < 2 ^ 256 → MinimalWidth (byteWidth y) y ∧ byteWidth y = msb y / 8 + 1 ∧
    byteWidth y = ((BitVec.ofNat 8 (msb y)).extractLsb' 3 5).toNat + 1) ∧ byteWidth 0 = 1 ∧
  (∀ y z : Nat, y ≤ z → z < 2 ^ 256 → byteWidth y ≤ byteWidth z) ∧
  (∀ y z : Nat, y < 2 ^ 256 → z < 2 ^ 256 → msb y ≤ msb z → byteWidth y ≤ byteWidth z)

/-- The fields of `meta` do not overlap, so each `|` of `META` is an addition, and `meta` fits its width
(spec/43_meta_encoder.md R141, R145): on every path and every width and count the strategies can give. -/
def Obligations.MetaFieldsAreDisjoint : Prop :=
  ∀ (p : Path) (w e : Nat), 1 ≤ w → w ≤ 32 → e ≤ 255 →
    (metaEncode w p.flags p.expanded e).1 = 1 + p.expanded.toNat ∧
    (metaEncode w p.flags p.expanded e).2 =
      (if p.expanded then ((w - 1) + p.flags) * 256 + e else w - 1) ∧
    (metaEncode w p.flags p.expanded e).2 < 2 ^ (8 * (metaEncode w p.flags p.expanded e).1) ∧
    (metaEncode w p.flags p.expanded e).2 ≤ 0x7FFF

/-- `BE` (spec/44_value_serializer.md R150, R151): inside its domain exactly `n` bytes whose big-endian value is `y`,
byte `k` being `floor(y / 2^(8(n-1-k))) mod 256`; where `y` does not fit `n` bytes, nothing. -/
def Obligations.SerialiserIsBigEndian : Prop :=
  (∀ y n : Nat, 1 ≤ n → y < 2 ^ (8 * n) →
    ∃ bytes, be y n = some bytes ∧ bytes.length = n ∧ bigEndianValue bytes = y ∧
      ∀ k < n, (bytes[k]?.map BitVec.toNat) = some (y / 2 ^ (8 * (n - 1 - k)) % 256)) ∧
  (∀ y n : Nat, 1 ≤ n → 2 ^ (8 * n) ≤ y → be y n = none)

/-- The two writes of an operation touch disjoint cells, so their order does not matter (spec/20_memory.md R42): on a
buffer in canonical form, two writes inside their domains at disjoint offsets give the same buffer in either order. -/
def Obligations.DisjointWritesCommute : Prop :=
  ∀ (m : Memory) (a n v b k w : Nat), m.wf = true → a + n ≤ 34 → b + k ≤ 34 → 1 ≤ n → 1 ≤ k →
    v < 2 ^ (8 * n) → w < 2 ^ (8 * k) → a + n ≤ b ∨ b + k ≤ a →
    ∃ m1 m2 m', memWrite m a n v = .next m1 ∧ memWrite m1 b k w = .next m' ∧
      memWrite m b k w = .next m2 ∧ memWrite m2 a n v = .next m'

/-- The widths always suffice (spec/44_value_serializer.md R155): for every operand an operation accepts, `y` fits
`valWidth` bytes and `meta` fits `metaWidth` bytes, so both calls of `BE` are inside its domain, and the sequence fits
the buffer. -/
def Obligations.WidthsAlwaysSuffice : Prop :=
  (∀ i : Nat, i < 2 ^ 256 → ∀ c ∈ [plainComponents i, trimmedComponents i],
    beDomain c.metaField c.metaWidth = true ∧ beDomain c.y c.valWidth = true ∧ c.metaWidth + c.valWidth ≤ 34) ∧
  (∀ i : Int, i.natAbs < 2 ^ 256 →
    beDomain (signedComponents i).metaField (signedComponents i).metaWidth = true ∧
    beDomain (signedComponents i).y (signedComponents i).valWidth = true ∧
    (signedComponents i).metaWidth + (signedComponents i).valWidth ≤ 34)

/-- `y` is never negative and fits 256 bits on every path (spec/42_variable_length_encoder.md R134): it is `i` under ENC1
and the ENC2 fallback, at most `i` on the other non-negative paths, and on the negative path the complement of the shifted
operand, which is an integer between 0 and `2^256 - 2` before it is a magnitude. -/
def Obligations.StoredMagnitudeFits : Prop :=
  (∀ i : Nat, i < 2 ^ 256 →
    (plainComponents i).y = i ∧ (lsb i < 32 → (trimmedComponents i).y = i) ∧
    (trimmedComponents i).y ≤ i ∧ (signedComponents i).y ≤ i) ∧
  (∀ i : Int, i < 0 → i.natAbs < 2 ^ 256 →
    ((signedComponents i).y : Int) = complement (shiftRightSigned i (clampedExpansion i)) ∧
    0 ≤ complement (shiftRightSigned i (clampedExpansion i)) ∧
    complement (shiftRightSigned i (clampedExpansion i)) ≤ ((2 ^ 256 : Nat) : Int) - 2)

/-- The negative path may complement first and then shift logically (spec/42_variable_length_encoder.md R132):
`not(i >>s e) = not(i) >>u e = (|i| - 1) >>u e` for `i < 0`. -/
def Obligations.ComplementThenShift : Prop :=
  ∀ (i : Int) (e : Nat), i < 0 →
    complement (shiftRightSigned i e) = (((complement i).toNat / 2 ^ e : Nat) : Int) ∧
    complement (shiftRightSigned i e) = (((i.natAbs - 1) / 2 ^ e : Nat) : Int)

/-- The bit-level hardware form of the block (priority encoders, 257-bit arithmetic shift, complementer, concatenated
flag byte, byte lanes) answers every request exactly as the operations do (spec/40_msb_finder.md R106,
spec/42_variable_length_encoder.md R132, spec/43_meta_encoder.md R147, spec/44_value_serializer.md R157). -/
def Obligations.HardwareFormRefinesOperations : Prop :=
  ∀ (r : Request) (s : State), serve r s = .next { s with out := portResponse r }

/-- The flattened bus carries the cells: `out_data[8k+7 : 8k] = out_byte[k]` (spec/30_encoding.md R65). -/
def Obligations.FlattenedBusCarriesCells : Prop :=
  ∀ (r : Response) (k : Nat), k < 34 → r.outData.extractLsb' (8 * k) 8 = r.outByte.get k
end

