-- ==== Sys2Proof/Laws/State.lean ====
section
/-!
SUPPORT. One lemma per field per update of the state and of the responses, so that no later proof unfolds a record
update.
-/
namespace Sys2Proof.Machine

/-! ### `respond` -/

@[simp] theorem State.respond_inputs (s : State) (r : Response) : (s.respond r).inputs = s.inputs := rfl
@[simp] theorem State.respond_inFlight (s : State) (r : Response) : (s.respond r).inFlight = s.inFlight := rfl
@[simp] theorem State.respond_out (s : State) (r : Response) : (s.respond r).out = r := rfl
@[simp] theorem State.respond_respond (s : State) (r r' : Response) :
    (s.respond r).respond r' = s.respond r' := rfl

/-! ### `advance` -/

@[simp] theorem State.advance_inputs (s : State) : s.advance.inputs = s.inputs := rfl
@[simp] theorem State.advance_inFlight (s : State) :
    s.advance.inFlight = (s.inFlight ++ [s.inputs.request]).tail := rfl
@[simp] theorem State.advance_out (s : State) : s.advance.out = s.out := rfl

/-! ### `resetCycle` -/

@[simp] theorem State.resetCycle_inputs (s : State) : s.resetCycle.inputs = s.inputs := rfl
@[simp] theorem State.resetCycle_inFlight (s : State) :
    s.resetCycle.inFlight = List.replicate s.inFlight.length none := rfl
@[simp] theorem State.resetCycle_out (s : State) : s.resetCycle.out = idleResponse := rfl

/-! ### `drive` -/

@[simp] theorem State.drive_inputs (s : State) (x : Inputs) : (s.drive x).inputs = x := rfl
@[simp] theorem State.drive_inFlight (s : State) (x : Inputs) : (s.drive x).inFlight = s.inFlight := rfl
@[simp] theorem State.drive_out (s : State) (x : Inputs) : (s.drive x).out = s.out := rfl

/-! ### `present` -/

@[simp] theorem State.present_out (s : State) (r : Request) : (s.present r).out = s.out := by
  unfold State.present; split <;> rfl

@[simp] theorem State.resetActive_present (s : State) (r : Request) : (s.present r).resetActive = false := by
  unfold State.present; split <;> simp_all [State.resetActive]

@[simp] theorem State.present_length (s : State) (r : Request) :
    (s.present r).inFlight.length = s.inFlight.length := by
  unfold State.present; split <;> simp_all

/-- What `present` puts in the block is what the next step takes. -/
@[simp] theorem State.fetch_present (s : State) (r : Request) : (s.present r).fetch = some r := by
  unfold State.present; split <;> simp_all [State.fetch, Inputs.request]

/-! ### Reset -/

/-- The reset input is active exactly where `rst` is asserted in a build that holds requests in flight. -/
@[simp] theorem State.resetActive_eq_true (s : State) :
    s.resetActive = true ↔ s.inputs.rst = true ∧ s.inFlight ≠ [] := by
  simp [State.resetActive]

@[simp] theorem State.resetActive_eq_false (s : State) :
    s.resetActive = false ↔ s.inputs.rst = false ∨ s.inFlight = [] := by
  unfold State.resetActive; cases s.inputs.rst <;> simp

@[simp] theorem State.resetWith_inputs (n : Nat) : (State.resetWith n).inputs = quietInputs := rfl
@[simp] theorem State.resetWith_inFlight (n : Nat) :
    (State.resetWith n).inFlight = List.replicate n none := rfl
@[simp] theorem State.resetWith_out (n : Nat) : (State.resetWith n).out = idleResponse := rfl
@[simp] theorem quietInputs_rst : quietInputs.rst = false := rfl
@[simp] theorem quietInputs_request : quietInputs.request = none := rfl

/-! ### Responses -/

@[simp] theorem idleResponse_outValid : idleResponse.outValid = false := rfl
@[simp] theorem idleResponse_outFault : idleResponse.outFault = false := rfl
@[simp] theorem idleResponse_outCause : idleResponse.outCause = 0 := rfl
@[simp] theorem idleResponse_outLen : idleResponse.outLen = 0 := rfl
@[simp] theorem idleResponse_outByte : idleResponse.outByte = [] := rfl

@[simp] theorem faultResponse_outValid (c : Cause) : (faultResponse c).outValid = true := rfl
@[simp] theorem faultResponse_outFault (c : Cause) : (faultResponse c).outFault = true := rfl
@[simp] theorem faultResponse_outCause (c : Cause) : (faultResponse c).outCause = c.code := rfl
@[simp] theorem faultResponse_outLen (c : Cause) : (faultResponse c).outLen = 0 := rfl
@[simp] theorem faultResponse_outByte (c : Cause) : (faultResponse c).outByte = [] := rfl

@[simp] theorem normalResponse_outValid (m : Memory) (n : Nat) : (normalResponse m n).outValid = true := rfl
@[simp] theorem normalResponse_outFault (m : Memory) (n : Nat) : (normalResponse m n).outFault = false := rfl
@[simp] theorem normalResponse_outCause (m : Memory) (n : Nat) : (normalResponse m n).outCause = 0 := rfl
@[simp] theorem normalResponse_outLen (m : Memory) (n : Nat) :
    (normalResponse m n).outLen = BitVec.ofNat 6 n := rfl
@[simp] theorem normalResponse_outByte (m : Memory) (n : Nat) : (normalResponse m n).outByte = m := rfl

end Sys2Proof.Machine
end

