-- ==== Sys2Proof/Laws/Memory.lean ====
section
/-!
SUPPORT. The output buffer: every operation on it keeps the canonical form, a read after a write gives the value
written and every other cell what it held, and two buffers in canonical form that read alike are equal.
-/
namespace Sys2Proof.Machine

/-! ### Reading -/

@[simp] theorem Memory.get_nil (a : Nat) : Memory.get [] a = unlistedByte := rfl

theorem Memory.get_entry (k : Nat) (b : Byte) (m : Memory) (a : Nat) :
    Memory.get ((k, b) :: m) a = if k = a then b else Memory.get m a := rfl

@[simp] theorem Memory.get_cons (a : Nat) (b : Byte) (m : Memory) (x : Nat) (h : x = a → m.get a = unlistedByte) :
    (Memory.cons a b m).get x = if x = a then b else m.get x := by
  unfold Memory.cons
  by_cases hb : b = unlistedByte <;> by_cases hx : x = a <;> simp_all [Memory.get_entry, eq_comm]

theorem Memory.read_of_lt (m : Memory) {a : Nat} (h : a < 34) : m.read a = some (m.get a) := by
  simp [Memory.read, Config.bufferCells, h]

theorem Memory.read_of_le (m : Memory) {a : Nat} (h : 34 ≤ a) : m.read a = none := by
  simp [Memory.read, Config.bufferCells, Nat.not_lt.mpr h]

/-! ### The canonical form -/

@[simp] theorem Memory.wfFrom_nil (low : Nat) : Memory.wfFrom low [] = true := rfl

@[simp] theorem Memory.wfFrom_entry (low a : Nat) (b : Byte) (m : Memory) :
    Memory.wfFrom low ((a, b) :: m) = true ↔
      low ≤ a ∧ a < 34 ∧ b ≠ unlistedByte ∧ Memory.wfFrom (a + 1) m = true := by
  simp only [Memory.wfFrom, Bool.and_eq_true, decide_eq_true_eq, bne_iff_ne, and_assoc]
  exact Iff.rfl

@[simp] theorem Memory.wf_nil : Memory.wf [] = true := rfl

theorem Memory.wfFrom_le {low low' : Nat} {m : Memory} (hle : low' ≤ low) (h : Memory.wfFrom low m = true) :
    Memory.wfFrom low' m = true := by
  cases m with
  | nil => rfl
  | cons e m =>
    obtain ⟨h1, h2⟩ := (Memory.wfFrom_entry ..).mp h
    exact (Memory.wfFrom_entry ..).mpr ⟨hle.trans h1, h2⟩

/-- A buffer whose entries start at `low` reads as unlisted below it. -/
theorem Memory.get_below {m : Memory} : ∀ {low a : Nat}, Memory.wfFrom low m = true → a < low →
    m.get a = unlistedByte := by
  induction m with
  | nil => intros; rfl
  | cons e m ih =>
    intro low a h ha
    obtain ⟨h1, -, -, h4⟩ := (Memory.wfFrom_entry ..).mp h
    rw [Memory.get_entry, if_neg (by omega)]
    exact ih h4 (by omega)

theorem Memory.wfFrom_cons {low a : Nat} {b : Byte} {m : Memory} (hlow : low ≤ a) (ha : a < 34)
    (h : Memory.wfFrom (a + 1) m = true) : Memory.wfFrom low (Memory.cons a b m) = true := by
  unfold Memory.cons
  split
  · exact Memory.wfFrom_le (by omega) h
  · simp_all

/-- Setting a cell of the buffer keeps the canonical form. -/
theorem Memory.wfFrom_set {a : Nat} (b : Byte) (ha : a < 34) {m : Memory} :
    ∀ {low : Nat}, low ≤ a → Memory.wfFrom low m = true → Memory.wfFrom low (m.set a b) = true := by
  induction m with
  | nil => intro low hlow _; exact Memory.wfFrom_cons hlow ha rfl
  | cons e m ih =>
    intro low hlow h
    obtain ⟨h1, h2, h3, h4⟩ := (Memory.wfFrom_entry ..).mp h
    unfold Memory.set
    split
    · exact Memory.wfFrom_cons hlow ha ((Memory.wfFrom_entry ..).mpr ⟨by omega, h2, h3, h4⟩)
    · split
      · subst a; exact Memory.wfFrom_cons hlow ha h4
      · exact (Memory.wfFrom_entry ..).mpr ⟨h1, h2, h3, ih (by omega) h4⟩

theorem Memory.wf_set {m : Memory} {a : Nat} (b : Byte) (ha : a < 34) (h : m.wf = true) :
    (m.set a b).wf = true :=
  Memory.wfFrom_set b ha (Nat.zero_le _) h

/-- A read after a write: the cell written holds the byte, every other cell what it held. -/
theorem Memory.get_set_from {m : Memory} (a : Nat) (b : Byte) (x : Nat) :
    ∀ {low : Nat}, Memory.wfFrom low m = true → (m.set a b).get x = if x = a then b else m.get x := by
  induction m with
  | nil => intros; exact Memory.get_cons _ _ _ _ fun _ => rfl
  | cons e m ih =>
    intro low h
    obtain ⟨k, c⟩ := e
    obtain ⟨h1, -, -, h4⟩ := (Memory.wfFrom_entry ..).mp h
    unfold Memory.set
    split
    · refine Memory.get_cons _ _ _ _ fun _ => ?_
      rw [Memory.get_entry, if_neg (by omega), Memory.get_below h4 (by omega)]
    · split
      · subst a
        rw [Memory.get_cons _ _ _ _ fun _ => Memory.get_below h4 (by omega), Memory.get_entry]
        by_cases hx : x = k
        · rw [if_pos hx, if_pos hx]
        · rw [if_neg hx, if_neg hx, if_neg (Ne.symm hx)]
      · rw [Memory.get_entry, ih h4, Memory.get_entry]
        by_cases hx : x = a <;> by_cases hk : k = x <;> simp_all

theorem Memory.get_set {m : Memory} (h : m.wf = true) (a : Nat) (b : Byte) (x : Nat) :
    (m.set a b).get x = if x = a then b else m.get x :=
  Memory.get_set_from a b x h

/-- Two buffers in canonical form that read alike are equal. -/
theorem Memory.ext_from {m : Memory} : ∀ {m' : Memory} {low : Nat}, Memory.wfFrom low m = true →
    Memory.wfFrom low m' = true → (∀ a, m.get a = m'.get a) → m = m' := by
  induction m with
  | nil =>
    intro m' low _ h' hget
    cases m' with
    | nil => rfl
    | cons e m' =>
      obtain ⟨k, b⟩ := e
      obtain ⟨-, -, h3, -⟩ := (Memory.wfFrom_entry ..).mp h'
      exact absurd (by simpa [Memory.get_entry] using (hget k).symm) h3
  | cons e m ih =>
    intro m' low h h' hget
    obtain ⟨k, b⟩ := e
    obtain ⟨-, -, h3, h4⟩ := (Memory.wfFrom_entry ..).mp h
    cases m' with
    | nil => exact absurd (by simpa [Memory.get_entry] using hget k) h3
    | cons e' m' =>
      obtain ⟨k', b'⟩ := e'
      obtain ⟨-, -, h3', h4'⟩ := (Memory.wfFrom_entry ..).mp h'
      have hk : k = k' := by
        rcases Nat.lt_trichotomy k k' with hlt | heq | hlt
        · have := hget k
          rw [Memory.get_entry, if_pos rfl, Memory.get_entry, if_neg (by omega), Memory.get_below h4' (by omega)] at this
          exact absurd this h3
        · exact heq
        · have := hget k'
          rw [Memory.get_entry, if_neg (by omega), Memory.get_below h4 (by omega), Memory.get_entry, if_pos rfl] at this
          exact absurd this.symm h3'
      subst hk
      have hb : b = b' := by simpa [Memory.get_entry] using hget k
      subst hb
      congr 1
      refine ih h4 h4' fun a => ?_
      by_cases ha : k = a
      · subst ha; rw [Memory.get_below h4 (by omega), Memory.get_below h4' (by omega)]
      · simpa [Memory.get_entry, ha] using hget a

theorem Memory.ext {m m' : Memory} (h : m.wf = true) (h' : m'.wf = true) (hget : ∀ a, m.get a = m'.get a) :
    m = m' :=
  Memory.ext_from h h' hget

/-- Beyond the last cell a canonical buffer lists nothing. -/
theorem Memory.get_of_le {m : Memory} {a : Nat} (ha : 34 ≤ a) :
    ∀ {low : Nat}, Memory.wfFrom low m = true → m.get a = unlistedByte := by
  induction m with
  | nil => intros; rfl
  | cons e m ih =>
    intro low h
    obtain ⟨-, h2, -, h4⟩ := (Memory.wfFrom_entry ..).mp h
    rw [Memory.get_entry, if_neg (by omega)]
    exact ih h4

/-! ### Several cells -/

theorem Memory.wf_setAll {bytes : List Byte} : ∀ {m : Memory} {a : Nat}, a + bytes.length ≤ 34 → m.wf = true →
    (m.setAll a bytes).wf = true := by
  induction bytes with
  | nil => intro m a _ h; exact h
  | cons b bs ih =>
    intro m a ha h
    simp only [List.length_cons] at ha
    exact ih (by omega) (Memory.wf_set b (by omega) h)

/-- After a list of bytes is stored from `a` on, its cells hold it and every other cell what it held. -/
theorem Memory.get_setAll {bytes : List Byte} : ∀ {m : Memory} {a : Nat}, a + bytes.length ≤ 34 → m.wf = true →
    ∀ x, (m.setAll a bytes).get x = if a ≤ x then (bytes[x - a]?).getD (m.get x) else m.get x := by
  induction bytes with
  | nil => intro m a _ _ x; simp [Memory.setAll]
  | cons b bs ih =>
    intro m a ha h x
    simp only [List.length_cons] at ha
    rw [Memory.setAll, ih (by omega) (Memory.wf_set b (by omega) h), Memory.get_set h]
    rcases Nat.lt_trichotomy x a with hx | hx | hx
    · simp [Nat.not_le.mpr hx, show ¬ a + 1 ≤ x by omega, show x ≠ a by omega]
    · subst hx; simp
    · obtain ⟨d, rfl⟩ := Nat.exists_eq_add_of_lt hx
      simp [show a + 1 ≤ a + d + 1 by omega, show a ≤ a + d + 1 by omega, show a + d + 1 ≠ a by omega,
        show a + d + 1 - (a + 1) = d by omega, show a + d + 1 - a = d + 1 by omega]

end Sys2Proof.Machine
end

