-- ==== Sys2Proof/Laws/Ops.lean ====
section
/-!
SUPPORT. What each shared operation can do, said once: serialisation, the write primitive, the fault response, the
packer, the checks.
-/
namespace Sys2Proof.Machine

/-! ### `andThen` -/

@[simp] theorem andThen_next {α β : Type} (a : α) (f : α → Host.Outcome β Fault Refusal) :
    andThen (.next a) f = f a := rfl
@[simp] theorem andThen_fault {α β : Type} (r : Fault) (f : α → Host.Outcome β Fault Refusal) :
    andThen (.fault r) f = .fault r := rfl
@[simp] theorem andThen_refused {α β : Type} (r : Refusal) (f : α → Host.Outcome β Fault Refusal) :
    andThen (.refused r) f = .refused r := rfl

/-- A sequence that goes on went on in both of its parts. -/
theorem andThen_eq_next {α β : Type} {o : Host.Outcome α Fault Refusal} {f : α → Host.Outcome β Fault Refusal}
    {b : β} : andThen o f = .next b ↔ ∃ a, o = .next a ∧ f a = .next b := by
  cases o <;> simp

/-! ### `be` -/

theorem beDomain_iff (y n : Nat) : beDomain y n = true ↔ 1 ≤ n ∧ y < 2 ^ (8 * n) := by
  simp only [beDomain, Bool.and_eq_true, decide_eq_true_eq]

theorem be_eq_some {y n : Nat} {bytes : List Byte} :
    be y n = some bytes ↔ (1 ≤ n ∧ y < 2 ^ (8 * n)) ∧ bytes = (List.range n).map (beByte y n) := by
  rw [← beDomain_iff, be]
  cases beDomain y n with
  | true => simp [@eq_comm _ bytes]
  | false => simp

theorem be_of_domain {y n : Nat} (hn : 1 ≤ n) (hy : y < 2 ^ (8 * n)) :
    be y n = some ((List.range n).map (beByte y n)) :=
  be_eq_some.mpr ⟨⟨hn, hy⟩, rfl⟩

/-- The bytes of `BE`, indexed. -/
theorem beByte_getElem? (y n k : Nat) (hk : k < n) :
    ((List.range n).map (beByte y n))[k]? = some (beByte y n k) := by
  simp [hk]

/-! ### `memWrite` -/

/-- Everything `memWrite` can do when it goes on. -/
theorem memWrite_eq_next {m m' : Memory} {addr n v : Nat} :
    memWrite m addr n v = .next m' ↔ addr + n ≤ 34 ∧ (1 ≤ n ∧ v < 2 ^ (8 * n)) ∧
      m' = m.setAll addr ((List.range n).map (beByte v n)) := by
  unfold memWrite
  constructor
  · intro h
    split at h
    · rename_i hb
      split at h
      · rename_i bytes hbe
        obtain ⟨hd, rfl⟩ := be_eq_some.mp hbe
        cases h
        exact ⟨hb, hd, rfl⟩
      · cases h
    · cases h
  · rintro ⟨hb, ⟨hn, hv⟩, rfl⟩
    rw [if_pos (show addr + n ≤ Config.bufferCells from hb), be_of_domain hn hv]

/-- Where `memWrite` stops, it is asked to write outside the buffer or outside the domain of `BE`. -/
theorem memWrite_of_domain (m : Memory) {addr n v : Nat} (hb : addr + n ≤ 34) (hn : 1 ≤ n)
    (hv : v < 2 ^ (8 * n)) :
    memWrite m addr n v = .next (m.setAll addr ((List.range n).map (beByte v n))) :=
  memWrite_eq_next.mpr ⟨hb, ⟨hn, hv⟩, rfl⟩

theorem memWrite_wf {m m' : Memory} {addr n v : Nat} (hm : m.wf = true) (h : memWrite m addr n v = .next m') :
    m'.wf = true := by
  obtain ⟨hb, -, rfl⟩ := memWrite_eq_next.mp h
  exact Memory.wf_setAll (by simpa using hb) hm

/-- What every cell holds after `memWrite`. -/
theorem memWrite_get {m m' : Memory} {addr n v : Nat} (hm : m.wf = true) (h : memWrite m addr n v = .next m')
    (a : Nat) : m'.get a = if addr ≤ a ∧ a < addr + n then beByte v n (a - addr) else m.get a := by
  obtain ⟨hb, -, rfl⟩ := memWrite_eq_next.mp h
  rw [Memory.get_setAll (by simpa using hb) hm]
  by_cases h1 : addr ≤ a
  · by_cases h2 : a < addr + n
    · rw [if_pos h1, if_pos ⟨h1, h2⟩, beByte_getElem? _ _ _ (by omega)]; rfl
    · rw [if_pos h1, if_neg (by omega), List.getElem?_eq_none (by simp; omega)]; rfl
  · rw [if_neg h1, if_neg (by omega)]

/-! ### The fault response -/

/-- Taking a fault always goes on, and changes nothing but the response. -/
theorem takeFault_eq (c : Cause) (s : State) : takeFault c s = .next (s.respond (faultResponse c)) := rfl

theorem Cause.code_ne_zero (c : Cause) : c.code ≠ 0 := by cases c <;> decide

/-! ### The checks -/

@[simp] theorem inRange_iff (i : Int) : inRange i = true ↔ i.natAbs < 2 ^ 256 := decide_eq_true_iff
@[simp] theorem signOf_iff (i : Int) : signOf i = true ↔ i < 0 := decide_eq_true_iff

theorem checkSigned_eq_none {i : Int} : checkSigned i = none ↔ i.natAbs < 2 ^ 256 := by
  rw [← inRange_iff, checkSigned]
  cases inRange i <;> simp

theorem checkSigned_eq_some {i : Int} {c : Cause} :
    checkSigned i = some c ↔ 2 ^ 256 ≤ i.natAbs ∧ c = .outOfRange := by
  rw [← not_lt, ← inRange_iff, checkSigned]
  cases inRange i with
  | true => simp
  | false => simp [@eq_comm _ c]

theorem checkUnsigned_eq_none {i : Int} : checkUnsigned i = none ↔ 0 ≤ i ∧ i.natAbs < 2 ^ 256 := by
  rw [← not_lt, ← signOf_iff, ← checkSigned_eq_none, checkUnsigned]
  cases checkSigned i <;> cases signOf i <;> simp

theorem checkUnsigned_eq_some {i : Int} {c : Cause} :
    checkUnsigned i = some c ↔
      (2 ^ 256 ≤ i.natAbs ∧ c = .outOfRange) ∨ (i.natAbs < 2 ^ 256 ∧ i < 0 ∧ c = .negativeOperand) := by
  rw [← checkSigned_eq_some, ← checkSigned_eq_none, ← signOf_iff, checkUnsigned]
  cases checkSigned i <;> cases signOf i <;> simp [@eq_comm _ c]

/-! ### `pack` and `emit` -/

/-- Everything `pack` can do when it goes on: the record fits its widths, and every cell of the buffer is a meta
byte, a value byte or padding. -/
theorem pack_eq_next {c : EncodeComponents} {m : Memory} {n : Nat} (h : pack c = .next (m, n)) :
    (1 ≤ c.metaWidth ∧ c.metaField < 2 ^ (8 * c.metaWidth)) ∧ (1 ≤ c.valWidth ∧ c.y < 2 ^ (8 * c.valWidth)) ∧
      c.metaWidth + c.valWidth ≤ 34 ∧ n = c.metaWidth + c.valWidth ∧ m.wf = true ∧
      ∀ a, m.get a =
        if a < c.metaWidth then beByte c.metaField c.metaWidth a
        else if a < c.metaWidth + c.valWidth then beByte c.y c.valWidth (a - c.metaWidth)
        else 0x00 := by
  obtain ⟨m1, h1, hrest⟩ := andThen_eq_next.mp h
  obtain ⟨m2, h2, h3⟩ := andThen_eq_next.mp hrest
  cases h3
  have w1 := memWrite_wf Memory.wf_nil h1
  refine ⟨(memWrite_eq_next.mp h1).2.1, (memWrite_eq_next.mp h2).2.1, (memWrite_eq_next.mp h2).1, rfl,
    memWrite_wf w1 h2, fun a => ?_⟩
  rw [memWrite_get w1 h2, memWrite_get Memory.wf_nil h1]
  by_cases ha : a < c.metaWidth
  · rw [if_neg (by omega), if_pos (by omega), if_pos ha]; rfl
  · by_cases hb : a < c.metaWidth + c.valWidth
    · rw [if_pos (by omega), if_neg ha, if_pos hb]
    · rw [if_neg (by omega), if_neg (by omega), if_neg ha, if_neg hb]; rfl

/-- `pack` goes on with every record that fits its widths and the buffer. -/
theorem pack_of_fits {c : EncodeComponents} (hm : 1 ≤ c.metaWidth) (hmf : c.metaField < 2 ^ (8 * c.metaWidth))
    (hv : 1 ≤ c.valWidth) (hy : c.y < 2 ^ (8 * c.valWidth)) (hb : c.metaWidth + c.valWidth ≤ 34) :
    ∃ m, pack c = .next (m, c.metaWidth + c.valWidth) := by
  rw [pack, memWrite_of_domain _ (by omega) hm hmf, andThen_next, memWrite_of_domain _ hb hv hy, andThen_next]
  exact ⟨_, rfl⟩

/-- Everything `emit` can do when it goes on: it drives the packed record as a normal response. -/
theorem emit_eq_next {c : EncodeComponents} {s t : State} :
    emit c s = .next t ↔ ∃ m n, pack c = .next (m, n) ∧ t = s.respond (normalResponse m n) := by
  simp only [emit, andThen_eq_next, Prod.exists, Host.Outcome.next.injEq, @eq_comm _ _ t]

end Sys2Proof.Machine
end

