-- ==== Sys2Proof/Laws/Step.lean ====
section
/-!
SUPPORT. What each operation, the front end and a step can do, said once.
-/
namespace Sys2Proof.Machine

/-! ### The operations -/

/-- ENC1 ends in the fault response of its checks or emits the plain record. -/
theorem execEnc1_eq_next {i : Int} {s t : State} :
    execEnc1 i s = .next t ↔ (∃ c, checkUnsigned i = some c ∧ t = s.respond (faultResponse c)) ∨
      (checkUnsigned i = none ∧ emit (plainComponents i) s = .next t) := by
  unfold execEnc1; cases checkUnsigned i <;> simp [takeFault, eq_comm]

/-- ENC2 ends in the fault response of its checks or emits the trimmed record. -/
theorem execEnc2_eq_next {i : Int} {s t : State} :
    execEnc2 i s = .next t ↔ (∃ c, checkUnsigned i = some c ∧ t = s.respond (faultResponse c)) ∨
      (checkUnsigned i = none ∧ emit (trimmedComponents i) s = .next t) := by
  unfold execEnc2; cases checkUnsigned i <;> simp [takeFault, eq_comm]

/-- ENC3 ends in the fault response of its checks or emits the signed record. -/
theorem execEnc3_eq_next {i : Int} {s t : State} :
    execEnc3 i s = .next t ↔ (∃ c, checkSigned i = some c ∧ t = s.respond (faultResponse c)) ∨
      (checkSigned i = none ∧ emit (signedComponents i) s = .next t) := by
  unfold execEnc3; cases checkSigned i <;> simp [takeFault, eq_comm]

/-! ### The record a path hands on -/

@[simp] theorem handOn_valWidth (p : Path) (e y : Nat) : (handOn p e y).valWidth = byteWidth y := rfl
@[simp] theorem handOn_y (p : Path) (e y : Nat) : (handOn p e y).y = y := rfl
@[simp] theorem handOn_metaWidth (p : Path) (e y : Nat) :
    (handOn p e y).metaWidth = if p.expanded then 2 else 1 := by
  unfold handOn metaEncode; split <;> simp_all
theorem handOn_metaField (p : Path) (e y : Nat) :
    (handOn p e y).metaField =
      if p.expanded then ((byteWidth y - 1) ||| p.flags) <<< 8 ||| e else byteWidth y - 1 := by
  unfold handOn metaEncode; split <;> simp_all

/-! ### The front end and the step -/

/-- Serving a request is the `IllegalStrategy` fault on the reserved code, else the decoded operation. -/
theorem serve_eq_next {r : Request} {s t : State} :
    serve r s = .next t ↔
      (decode r.word = .error .illegalStrategy ∧ t = s.respond (faultResponse .illegalStrategy)) ∨
      (∃ i, decode r.word = .ok i ∧ exec i s = .next t) := by
  unfold serve
  cases h : decode r.word with
  | error e => cases e; simp [takeFault, eq_comm]
  | ok i => simp

theorem serveSlot_some (r : Request) (s : State) : serveSlot (some r) s = serve r s := rfl
theorem serveSlot_none (s : State) : serveSlot none s = .next (s.respond idleResponse) := rfl

/-- Everything a step can do when it goes on. -/
theorem step_eq_next {s t : State} :
    step s = .next t ↔ (s.resetActive = true ∧ t = s.resetCycle) ∨
      (s.resetActive = false ∧ s.fetch = none ∧ t = s.advance.respond idleResponse) ∨
      (s.resetActive = false ∧ ∃ r, s.fetch = some r ∧ serve r s.advance = .next t) := by
  unfold step
  cases s.resetActive with
  | true => simp [eq_comm]
  | false => cases hf : s.fetch <;> simp [serveSlot, eq_comm]

/-- The slot a step answers is the head of the pipeline with what the ports present behind it. -/
theorem State.fetch_eq_head (s : State) : (s.inFlight ++ [s.inputs.request]).head? = some s.fetch := by
  unfold State.fetch; cases s.inFlight <;> rfl

/-- No step makes the pipeline longer or shorter: `LATENCY` is the same for every request. -/
theorem State.advance_length (s : State) : s.advance.inFlight.length = s.inFlight.length := by
  simp

end Sys2Proof.Machine
end

