-- ==== Sys2Proof/Laws/PerInstr.lean ====
section
/-!
SUPPORT. A property of the encoding stated of every instruction and proved constructor by constructor: the word of
an operation carries the operation's type number on `op_sel`, never the reserved code, and its operand modulo 2^257
on `op_value` (spec/30_encoding.md R60, R62, R74).
-/
namespace Sys2Proof.Laws

open Sys2Proof

/-- The fields of a word put together from its fields. -/
theorem selectField_requestWord (sel : Select) (v : OperandWord) : selectField (requestWord sel v) = sel := by
  ext k hk
  have h : (sel ++ v).getLsbD (257 + k) = sel.getLsbD k := by rw [BitVec.getLsbD_append]; simp
  simpa [selectField, requestWord, BitVec.getElem_extractLsb', BitVec.getLsbD_eq_getElem hk] using h

theorem operandField_requestWord (sel : Select) (v : OperandWord) : operandField (requestWord sel v) = v := by
  ext k hk
  have h : (sel ++ v).getLsbD k = v.getLsbD k := by rw [BitVec.getLsbD_append]; simp [hk]
  simpa [operandField, requestWord, BitVec.getElem_extractLsb', BitVec.getLsbD_eq_getElem hk] using h

/-- The statement of the family. -/
def EncodedFields.Statement (i : Instr) : Prop :=
  selectField (encode i) = i.select ∧ i.select ≠ 0 ∧
    ((operandField (encode i)).toNat : Int) = i.operand % ((2 ^ Config.operandBits : Nat) : Int)

theorem EncodedFields.of_select (i : Instr) (h : i.select ≠ 0) : EncodedFields.Statement i := by
  refine ⟨selectField_requestWord _ _, h, ?_⟩
  rw [encode, operandField_requestWord, operandCode, BitVec.toNat_ofInt,
    Int.toNat_of_nonneg (Int.emod_nonneg _ (Int.natCast_ne_zero.mpr (Nat.two_pow_pos _).ne')), Config.operandBits]

theorem EncodedFields.enc1 (i : Int) : EncodedFields.Statement (.enc1 i) := EncodedFields.of_select _ (by simp [Instr.select])
theorem EncodedFields.enc2 (i : Int) : EncodedFields.Statement (.enc2 i) := EncodedFields.of_select _ (by simp [Instr.select])
theorem EncodedFields.enc3 (i : Int) : EncodedFields.Statement (.enc3 i) := EncodedFields.of_select _ (by simp [Instr.select])

end Sys2Proof.Laws
end

