-- ==== Sys2Proof/Tests/Slice0.lean ====
section
/-!
SUPPORT. The model's own tests: the smoke test of WellFormed, one request word per operation, a few vectors of
spec/95_test_vectors.md (derived there from the rules; S-.. ids are the source's own examples), and for each statement
with hypotheses a witness that meets them, at a boundary value of each clause.
-/
namespace Sys2Proof.Tests

open Sys2Proof Sys2Proof.Machine

/-! ### WellFormed refuses what has no code on the port -/

theorem test_wellFormed_refuses_below : fitsBelow (-((2 ^ 256 : Nat) : Int) - 1) = false := by decide +kernel
theorem test_wellFormed_refuses_above : fitsAbove ((2 ^ 256 : Nat) : Int) = false := by decide +kernel
theorem test_wellFormed_refuses_enc3_below :
    (Instr.enc3 (-((2 ^ 256 : Nat) : Int) - 1)).wellFormed = false := by decide +kernel
theorem test_wellFormed_refuses_enc1_above : (Instr.enc1 ((2 ^ 256 : Nat) : Int)).wellFormed = false := by
  decide +kernel

/-! ### Request words of spec/95_test_vectors.md section 4 -/

/-- P1 row 3. -/
theorem test_decode_enc1 :
    decode 0x20000000000000000000000000000000000000000000000000000000000000100 = .ok (.enc1 256) := by decide +kernel
/-- P5 row 1, `ENC2 10^36`. -/
theorem test_decode_enc2 :
    decode 0x40000000000000000000000000000000000C097CE7BC90715B34B9F1000000000 =
      .ok (.enc2 1000000000000000000000000000000000000) := by decide +kernel
/-- P3 row 3, `ENC3 -257`. -/
theorem test_decode_enc3 :
    decode 0x7FFFFFFFFFFFFFFFFFFFFFFFFFFFFFFFFFFFFFFFFFFFFFFFFFFFFFFFFFFFFFEFF = .ok (.enc3 (-257)) := by
  decide +kernel
/-- P4 row 4, the reserved select. -/
theorem test_decode_reserved : decode 0x00000000000000000000000000000000000000000000000000000000000000005 =
    .error .illegalStrategy := by decide +kernel
/-- The same word as bits of the opcode table, and a bit that is on no port. -/
theorem test_decodeTableWord :
    decodeTableWord 264 0x200000000000000000000000000000000000000000000000000000000000000FF = some (.enc1 255) ∧
      decodeTableWord 264 0xA00000000000000000000000000000000000000000000000000000000000000FF = none := by
  decide +kernel

/-! ### One step on one request -/

/-- What the block answers to `ENC<n> i` right after reset: the cause of a fault, or the output sequence. -/
def answered (n : Nat) (i : Int) : Option (BitVec 2 × List Byte) :=
  match step (State.reset.withFetchWord 264 (requestWord (BitVec.ofNat 2 n) (operandCode i)).toNat) with
  | .next t => some (t.out.outCause, t.out.bytes)
  | .fault _ => none
  | .refused _ => none

/-- S-09, the source's `encodeType1(256)`. -/
theorem test_enc1_256 : answered 1 256 = some (0, [0x01, 0x01, 0x00]) := by decide +kernel
/-- V-F-01. -/
theorem test_enc1_negative : answered 1 (-1) = some (2, []) := by decide +kernel
/-- S-10, the source's `encodeType2(2^40)`. -/
theorem test_enc2_expands : answered 2 (2 ^ 40) = some (0, [0x20, 0x28, 0x01]) := by decide +kernel
/-- V-E2-05: 31 trailing zeros fall back. -/
theorem test_enc2_falls_back : answered 2 (0xFF * 2 ^ 31) = some (0, [0x04, 0x7F, 0x80, 0x00, 0x00, 0x00]) := by
  decide +kernel
/-- V-E3-23. -/
theorem test_enc3_negative : answered 3 (-(10 ^ 18)) =
    some (0, [0x65, 0x12, 0x03, 0x78, 0x2D, 0xAC, 0xE9, 0xD8]) := by decide +kernel
/-- V-E3-21: 33 trailing zeros are clamped, for a negative operand too. -/
theorem test_enc3_clamps : answered 3 (-(2 ^ 33)) =
    some (0, [0x64, 0x00, 0x01, 0xFF, 0xFF, 0xFF, 0xFF]) := by decide +kernel
/-- V-F-07: the reserved select has priority over the range check. -/
theorem test_reserved_select : answered 0 (-((2 ^ 256 : Nat) : Int)) = some (3, []) := by decide +kernel
/-- V-F-04: the range check has priority over the sign check. -/
theorem test_out_of_range : answered 1 (-((2 ^ 256 : Nat) : Int)) = some (1, []) := by decide +kernel

/-- R64, R180: the combinational build has no reset input, so a request presented with `rst` on the pin is answered. -/
theorem test_combinational_ignores_rst :
    (match step { State.reset with inputs := ⟨true, true, 1, 255⟩ } with
      | .next t => t.out.outValid && t.out.bytes == [0x00, 0xFF]
      | .fault _ => false
      | .refused _ => false) = true := by decide +kernel

/-! ### States for the witnesses -/

/-- A combinational block that is presented with `ENC<n> i`. -/
def presented (n : Nat) (i : Int) : State :=
  { State.reset with inputs := ⟨false, true, BitVec.ofNat 2 n, operandCode i⟩ }

/-- The same with `rst` on the pin, which this build does not have. -/
def rstPresented (n : Nat) (i : Int) : State :=
  { State.reset with inputs := ⟨true, true, BitVec.ofNat 2 n, operandCode i⟩ }

/-- A combinational block that is presented with nothing, with `rst` on the pin. -/
def rstQuiet : State := { State.reset with inputs := { quietInputs with rst := true } }

/-- A block with two cycles of latency: `ENC<n> i` in the oldest slot, ENC2 2^40 behind it, nothing presented. -/
def queued (n : Nat) (i : Int) : State :=
  { State.resetWith 2 with
    inFlight := [some ⟨BitVec.ofNat 2 n, operandCode i⟩, some ⟨2, operandCode (2 ^ 40)⟩] }

/-- The request `ENC<n> i`. -/
def req (n : Nat) (i : Int) : Request := ⟨BitVec.ofNat 2 n, operandCode i⟩

/-- The head of what a step takes its slot from. -/
def headSlot (s : State) : Option (Option Request) := (s.inFlight ++ [s.inputs.request]).head?

/-! ### Witnesses -/

theorem witness_EncodedOperationDecodesBack :
    (Instr.enc1 0).wellFormed = true ∧ (Instr.enc2 (((2 ^ 256 : Nat) : Int) - 1)).wellFormed = true ∧
      (Instr.enc3 (-((2 ^ 256 : Nat) : Int))).wellFormed = true := by decide +kernel

theorem witness_DecodedWordEncodesBack : decode (encode (.enc3 (-((2 ^ 256 : Nat) : Int)))) =
    .ok (.enc3 (-((2 ^ 256 : Nat) : Int))) := by decide +kernel

theorem witness_DecoderAgreesWithOpcodeTable :
    decode (encode (.enc2 5)) = .ok (.enc2 5) ∧ (rowOf (.enc2 5)).fits (encode (.enc2 5)) = true ∧
      decode 5 = .error .illegalStrategy ∧ opcodeRows.all (fun row => !row.fits 5) = true := by decide +kernel

theorem witness_StepRunsTheDecodedOperation :
    ((presented 1 5).inputs.rst = false ∧ headSlot (presented 1 5) = some (some (req 1 5)) ∧
      decode (req 1 5).word = .ok (.enc1 5)) ∧
    ((queued 3 (-1)).inputs.rst = false ∧ headSlot (queued 3 (-1)) = some (some (req 3 (-1))) ∧
      decode (req 3 (-1)).word = .ok (.enc3 (-1))) ∧
    ((rstPresented 2 5).inputs.rst = true ∧ (rstPresented 2 5).inFlight = [] ∧
      headSlot (rstPresented 2 5) = some (some (req 2 5)) ∧ decode (req 2 5).word = .ok (.enc2 5)) ∧
    ((queued 0 5).inputs.rst = false ∧ headSlot (queued 0 5) = some (some (req 0 5)) ∧
      decode (req 0 5).word = .error .illegalStrategy) := by decide +kernel

theorem witness_EmptySlotGivesIdleResponse :
    (State.reset.inputs.rst = false ∧ headSlot State.reset = some none) ∧
      ((State.resetWith 3).inputs.rst = false ∧ headSlot (State.resetWith 3) = some none) ∧
      (rstQuiet.inputs.rst = true ∧ rstQuiet.inFlight = [] ∧ headSlot rstQuiet = some none) := by decide +kernel

theorem witness_PresentedWordIsServedNext :
    (Instr.enc3 (-((2 ^ 256 : Nat) : Int))).wellFormed = true ∧
      decodeTableWord 264 (encode (.enc3 (-((2 ^ 256 : Nat) : Int)))).toNat =
        some (.enc3 (-((2 ^ 256 : Nat) : Int))) := by decide +kernel

/-- The largest operand, the least magnitude out of range, and the two ends of the negative in-range operands. -/
theorem witness_Enc1Behaviour :
    (2 ^ 256 - 1 < 2 ^ 256) ∧ (2 ^ 256 ≤ (-((2 ^ 256 : Nat) : Int)).natAbs) ∧
      ((-1 : Int) < 0 ∧ (-1 : Int).natAbs < 2 ^ 256) ∧
      (-((2 ^ 256 - 1 : Nat) : Int) < 0 ∧ (-((2 ^ 256 - 1 : Nat) : Int)).natAbs < 2 ^ 256) := by decide +kernel

/-- 0 and 2^31 on the fallback path, 2^32, 2^255 and the longest expanded operand on the other, and the faults. -/
theorem witness_Enc2Behaviour :
    ((0 : Nat) < 2 ^ 256 ∧ ((0 : Nat) = 0 ∨ ¬ 2 ^ 32 ∣ (0 : Nat))) ∧
      (2 ^ 31 < 2 ^ 256 ∧ (2 ^ 31 = 0 ∨ ¬ 2 ^ 32 ∣ 2 ^ 31)) ∧
      (1 % 2 = 1 ∧ 32 ≤ 32 ∧ 1 * 2 ^ 32 < 2 ^ 256) ∧ (1 % 2 = 1 ∧ 32 ≤ 255 ∧ 1 * 2 ^ 255 < 2 ^ 256) ∧
      ((2 ^ 224 - 1) % 2 = 1 ∧ 32 ≤ 32 ∧ (2 ^ 224 - 1) * 2 ^ 32 < 2 ^ 256) ∧
      (2 ^ 256 ≤ (((2 ^ 256 : Nat) : Int)).natAbs) ∧ ((-1 : Int) < 0 ∧ (-1 : Int).natAbs < 2 ^ 256) := by
  decide +kernel

/-- For either sign the counts 0, 32 (kept), 33 and 255 (clamped) and the greatest magnitude in range, and the least
magnitude out of range of either sign. -/
theorem witness_Enc3Behaviour :
    (1 % 2 = 1 ∧ 1 * 2 ^ 0 < 2 ^ 256) ∧ (1 % 2 = 1 ∧ 1 * 2 ^ 32 < 2 ^ 256) ∧ (1 % 2 = 1 ∧ 1 * 2 ^ 33 < 2 ^ 256) ∧
      (1 % 2 = 1 ∧ 1 * 2 ^ 255 < 2 ^ 256) ∧ ((2 ^ 256 - 1) % 2 = 1 ∧ (2 ^ 256 - 1) * 2 ^ 0 < 2 ^ 256) ∧
      (2 ^ 256 ≤ (-((2 ^ 256 : Nat) : Int)).natAbs) ∧ (2 ^ 256 ≤ (((2 ^ 256 : Nat) : Int)).natAbs) := by
  decide +kernel

theorem witness_Enc2FallbackIsEnc1 : lsb 0 < 32 ∧ lsb (2 ^ 31) < 32 ∧ lsb (-1) < 32 ∧
    2 ^ 256 ≤ (-((2 ^ 256 : Nat) : Int)).natAbs := by decide +kernel

theorem witness_Enc2AndEnc3AgreeAt32 : 1 % 2 = 1 ∧ 1 * 2 ^ 32 < 2 ^ 256 := by decide +kernel

/-- An operand with count 0 (0x181), one with count 7 (0x180), and a clamped one. -/
theorem witness_Enc3LengthAgainstEnc1 :
    0x181 < 2 ^ 256 ∧ (signedComponents 0x181).metaField % 256 = 0 ∧ 0x180 < 2 ^ 256 ∧
      (signedComponents 0x180).metaField % 256 = 7 ∧ 2 ^ 33 < 2 ^ 256 ∧
      (signedComponents (2 ^ 33)).metaField % 256 = 0 := by decide +kernel

theorem witness_OutputLengths :
    (2 ^ 256 - 1 < 2 ^ 256) ∧ (2 ^ 31 < 2 ^ 256 ∧ lsb ((2 ^ 31 : Nat) : Int) < 32) ∧
      (2 ^ 32 < 2 ^ 256 ∧ 32 ≤ lsb ((2 ^ 32 : Nat) : Int)) ∧
      ((-((2 ^ 256 - 1 : Nat) : Int)).natAbs < 2 ^ 256) := by decide +kernel

theorem witness_OperandIsRecoverable :
    (2 ^ 256 - 1 < 2 ^ 256) ∧ ((-((2 ^ 256 - 1 : Nat) : Int)).natAbs < 2 ^ 256) := by decide +kernel

/-- One request for each branch: reserved select over an operand out of range, out of range over negative, negative, and
the least in-range operand of ENC3. -/
theorem witness_FaultsReportedInOrder :
    (req 0 (-((2 ^ 256 : Nat) : Int))).sel = 0 ∧
    ((req 1 (-((2 ^ 256 : Nat) : Int))).sel ≠ 0 ∧ (req 1 (-((2 ^ 256 : Nat) : Int))).value.msb = true ∧
      (req 1 (-((2 ^ 256 : Nat) : Int))).value.extractLsb' 0 256 = 0) ∧
    ((req 2 (-1)).sel ≠ 0 ∧ (req 2 (-1)).sel ≠ 3 ∧ (req 2 (-1)).value.msb = true ∧
      (req 2 (-1)).value.extractLsb' 0 256 ≠ 0) ∧
    ((req 3 (-((2 ^ 256 - 1 : Nat) : Int))).sel = 3 ∧
      (req 3 (-((2 ^ 256 - 1 : Nat) : Int))).value.extractLsb' 0 256 = 1) := by decide +kernel

theorem witness_FaultResponseCarriesNoBytes :
    serve (req 2 (-1)) State.reset = .next (State.reset.respond (faultResponse .negativeOperand)) ∧
      (faultResponse .negativeOperand).outFault = true :=
  ⟨rfl, rfl⟩

/-- A run of three cycles over a pipeline of two slots. -/
theorem witness_ResponsesLeaveInRequestOrder :
    (∀ x ∈ [quietInputs, (presented 1 5).inputs, (presented 0 5).inputs], x.rst = false) ∧
      (queued 2 (-1)).inFlight.length = 2 ∧ (rstPresented 1 5).inFlight = [] := by decide +kernel

/-- The combinational build with `rst` on the pin, with and without a request presented. -/
theorem witness_CombinationalBuildAnswersAtOnce :
    ((rstPresented 1 5).inFlight = [] ∧ (rstPresented 1 5).inputs.opValid = true) ∧
      (rstQuiet.inFlight = [] ∧ rstQuiet.inputs.opValid = false) := by decide +kernel

theorem witness_ResetDropsRequestsInFlight :
    ((presented 1 5).inputs.rst = false ∧ ({ quietInputs with rst := true } : Inputs).rst = true) ∧
      (∀ y ∈ [(presented 1 5).inputs, quietInputs], y.rst = false) ∧ (queued 1 5).inFlight ≠ [] := by
  decide +kernel

theorem witness_StepKeepsLegalPorts :
    Inv (queued 2 (-1)) ∧
      step (queued 2 (-1)) = .next ((queued 2 (-1)).advance.respond (faultResponse .negativeOperand)) :=
  ⟨⟨rfl, .inl rfl⟩, rfl⟩

theorem witness_MsbIsHighestSetBit :
    (0 < 1 ∧ 1 < 2 ^ 256) ∧ (0 < 2 ^ 256 - 1 ∧ 2 ^ 256 - 1 < 2 ^ 256) ∧ (0 < 2 ^ 256) ∧
      (255 ≤ 256 ∧ 256 < 2 ^ 256) := by decide +kernel

theorem witness_HalvingLoopComputesMsb : 2 ^ 256 - 1 < 2 ^ 256 ∧ 0 < 2 ^ 256 := by decide +kernel

theorem witness_IsolatedBitIsLowestSetBit : (0 < 1 ∧ 1 < 2 ^ 256) ∧ (0 < 2 ^ 255 ∧ 2 ^ 255 < 2 ^ 256) := by
  decide +kernel

theorem witness_LsbCountsTrailingZeros :
    ((-((2 ^ 255 : Nat) : Int)) ≠ 0 ∧ (-((2 ^ 255 : Nat) : Int)).natAbs < 2 ^ 256) ∧
      ((-((2 ^ 256 - 1 : Nat) : Int)) < 0 ∧ (-((2 ^ 256 - 1 : Nat) : Int)).natAbs < 2 ^ 256) := by decide +kernel

theorem witness_ByteWidthIsMinimal : (2 ^ 256 - 1 < 2 ^ 256) ∧ (255 ≤ 256 ∧ 256 < 2 ^ 256) ∧
    (1 < 2 ^ 256 ∧ 0 < 2 ^ 256 ∧ msb 1 ≤ msb 0) := by decide +kernel

theorem witness_MetaFieldsAreDisjoint : (1 ≤ 1 ∧ 1 ≤ 32 ∧ 0 ≤ 255) ∧ (1 ≤ 32 ∧ 32 ≤ 32 ∧ 255 ≤ 255) := by
  decide +kernel

theorem witness_SerialiserIsBigEndian :
    (1 ≤ 1 ∧ 255 < 2 ^ (8 * 1)) ∧ (1 ≤ 1 ∧ 2 ^ (8 * 1) ≤ 256) := by decide +kernel

/-- Two meta bytes and 32 value bytes fill the buffer. -/
theorem witness_DisjointWritesCommute :
    Memory.wf [] = true ∧ 0 + 2 ≤ 34 ∧ 2 + 32 ≤ 34 ∧ 1 ≤ 2 ∧ 1 ≤ 32 ∧ 0x7F00 < 2 ^ (8 * 2) ∧
      2 ^ 256 - 1 < 2 ^ (8 * 32) ∧ (0 + 2 ≤ 2 ∨ 2 + 32 ≤ 0) := by decide +kernel

theorem witness_WidthsAlwaysSuffice :
    (2 ^ 256 - 1 < 2 ^ 256) ∧ ((-((2 ^ 256 - 1 : Nat) : Int)).natAbs < 2 ^ 256) := by decide +kernel

theorem witness_StoredMagnitudeFits :
    (2 ^ 31 < 2 ^ 256 ∧ lsb ((2 ^ 31 : Nat) : Int) < 32) ∧ ((-((2 ^ 256 - 1 : Nat) : Int)) < 0 ∧
      (-((2 ^ 256 - 1 : Nat) : Int)).natAbs < 2 ^ 256) := by decide +kernel

theorem witness_ComplementThenShift : (-1 : Int) < 0 ∧ (-256 : Int) < 0 := by decide +kernel

theorem witness_FlattenedBusCarriesCells : 0 < 34 ∧ 33 < 34 := by decide +kernel

end Sys2Proof.Tests
end

section
/-!
PROOFS. The widths of the record a strategy hands on: what is stored fits its bytes, and the sequence fits the buffer
(spec/42_variable_length_encoder.md R122, R134, R135; spec/44_value_serializer.md R155).
-/
namespace Sys2Proof.Machine

/-! ### `msb`, `byteWidth` and `lsb` -/

theorem msb_eq_log2 (v : Nat) : msb v = v.log2 := by
  unfold msb
  split
  · next h => subst h; rfl
  · rfl

theorem lt_two_pow_msb_succ (v : Nat) : v < 2 ^ (msb v + 1) :=
  msb_eq_log2 v ▸ Nat.lt_log2_self

/-- The finder's output fits eight bits on its whole domain (spec/40_msb_finder.md R100). -/
theorem msb_lt_256 {v : Nat} (h : v < 2 ^ 256) : msb v < 256 := by
  rw [msb_eq_log2]
  by_cases hv : v = 0
  · subst hv; decide
  · exact (Nat.log2_lt hv).mpr h

theorem byteWidth_pos (y : Nat) : 1 ≤ byteWidth y := Nat.succ_pos _

theorem byteWidth_le_32 {y : Nat} (h : y < 2 ^ 256) : byteWidth y ≤ 32 := by
  have := msb_lt_256 h
  unfold byteWidth
  omega

/-- A value fits its own byte width. -/
theorem lt_two_pow_byteWidth (y : Nat) : y < 2 ^ (8 * byteWidth y) := by
  have hbits : msb y + 1 ≤ 8 * byteWidth y := by unfold byteWidth; omega
  exact (lt_two_pow_msb_succ y).trans_le (Nat.pow_le_pow_right two_pos hbits)

theorem wrapped_lt (i : Int) : wrapped i < 2 ^ 256 := by
  change (i % ((2 ^ 256 : Nat) : Int)).toNat < 2 ^ 256
  omega

/-- The expansion count fits its byte, for every operand (spec/41_lsb_finder.md R114). -/
theorem lsb_lt_256 (i : Int) : lsb i < 256 :=
  msb_lt_256 (Nat.and_le_left.trans_lt (wrapped_lt i))

theorem clampedExpansion_lt_256 (i : Int) : clampedExpansion i < 256 := by
  have := lsb_lt_256 i
  simp only [clampedExpansion]
  split <;> omega

/-! ### The stored magnitude -/

theorem shiftRightUnsigned_le (a n : Nat) : shiftRightUnsigned a n ≤ a := Nat.div_le_self ..

/-- A negative operand only moves towards zero when it is shifted. -/
theorem le_shiftRightSigned {i : Int} (e : Nat) (hi : i < 0) : i ≤ shiftRightSigned i e := by
  have hpow : (1 : Int) ≤ (2 ^ e : Nat) := by exact_mod_cast Nat.one_le_two_pow
  exact (Int.le_ediv_iff_mul_le (by omega)).mpr (by nlinarith)

/-- The magnitude of the negative path stays below that of the operand (spec/42_variable_length_encoder.md R134). -/
theorem complement_shiftRightSigned_lt {i : Int} (e : Nat) (hi : i < 0) :
    (complement (shiftRightSigned i e)).toNat < i.natAbs := by
  have := le_shiftRightSigned e hi
  unfold complement
  omega

/-! ### Records that fit -/

/-- A record `PACK` can write: both calls of `BE` are inside its domain and the sequence fits the buffer
(spec/44_value_serializer.md R155). -/
structure EncodeComponents.Fits (c : EncodeComponents) : Prop where
  metaFits : beDomain c.metaField c.metaWidth = true
  valueFits : beDomain c.y c.valWidth = true
  room : c.metaWidth + c.valWidth ≤ 34

theorem Path.flags_lt (p : Path) : p.flags < 2 ^ 8 := by cases p <;> decide

theorem handOn_metaField_lt (p : Path) {e y : Nat} (he : e < 256) (hy : y < 2 ^ 256) :
    (handOn p e y).metaField < 2 ^ (8 * (handOn p e y).metaWidth) := by
  have hw : byteWidth y - 1 < 2 ^ 8 := by have := byteWidth_le_32 hy; omega
  rw [handOn_metaField, handOn_metaWidth]
  cases p.expanded with
  | false => exact hw
  | true =>
    have hflag : (byteWidth y - 1) ||| p.flags < 2 ^ 8 := Nat.or_lt_two_pow hw p.flags_lt
    refine Nat.or_lt_two_pow (n := 16) ?_ (by omega)
    rw [Nat.shiftLeft_eq]
    omega

/-- Whatever path hands it on, the record of a 256-bit magnitude and a count of one byte fits. -/
theorem handOn_fits (p : Path) {e y : Nat} (he : e < 256) (hy : y < 2 ^ 256) : (handOn p e y).Fits where
  metaFits := (beDomain_iff ..).mpr ⟨by rw [handOn_metaWidth]; split <;> decide, handOn_metaField_lt p he hy⟩
  valueFits := (beDomain_iff ..).mpr ⟨byteWidth_pos y, lt_two_pow_byteWidth y⟩
  room := by
    have := byteWidth_le_32 hy
    rw [handOn_metaWidth, handOn_valWidth]
    split <;> omega

theorem plainComponents_fits {i : Int} (hi : i.natAbs < 2 ^ 256) : (plainComponents i).Fits :=
  handOn_fits .plain (by decide) (by omega)

theorem trimmedComponents_fits {i : Int} (hi : i.natAbs < 2 ^ 256) : (trimmedComponents i).Fits := by
  have hnat : i.toNat < 2 ^ 256 := by omega
  simp only [trimmedComponents]
  split
  · exact handOn_fits .fallback (by decide) hnat
  · exact handOn_fits .trimmed (lsb_lt_256 i) ((shiftRightUnsigned_le ..).trans_lt hnat)

theorem signedComponents_fits {i : Int} (hi : i.natAbs < 2 ^ 256) : (signedComponents i).Fits := by
  simp only [signedComponents]
  split
  · next hneg =>
    exact handOn_fits _ (clampedExpansion_lt_256 i)
      ((complement_shiftRightSigned_lt _ ((signOf_iff i).mp hneg)).trans hi)
  · exact handOn_fits _ (clampedExpansion_lt_256 i) ((shiftRightUnsigned_le ..).trans_lt (by omega))

end Sys2Proof.Machine
end

section
/-!
PROOFS. One response for each operation, request and slot, from every state (spec/00_scope.md R14, R15): the statements
on totality, on the frame of the operations and on the response as a function of the request.
-/
namespace Sys2Proof.Machine

/-- From every state `f` goes on, drives `r` on the response ports and changes nothing else. -/
def RespondsWith (f : State → Host.Outcome State Fault Refusal) (r : Response) : Prop :=
  ∀ s, f s = .next (s.respond r)

/-- A record that fits is emitted as one normal response. -/
theorem EncodeComponents.Fits.emit {c : EncodeComponents} (h : c.Fits) :
    ∃ r, r.outValid = true ∧ RespondsWith (emit c) r := by
  obtain ⟨hm, hmf⟩ := (beDomain_iff ..).mp h.metaFits
  obtain ⟨hv, hy⟩ := (beDomain_iff ..).mp h.valueFits
  obtain ⟨m, hpack⟩ := pack_of_fits hm hmf hv hy h.room
  exact ⟨normalResponse m _, rfl, fun _ => emit_eq_next.mpr ⟨m, _, hpack, rfl⟩⟩

/-- An operation that ends in the fault response of its checks or emits a record that fits has one response. -/
theorem responds_of_checked {check : Option Cause} {c : EncodeComponents}
    {f : State → Host.Outcome State Fault Refusal}
    (hf : ∀ s t, f s = .next t ↔ (∃ k, check = some k ∧ t = s.respond (faultResponse k)) ∨
      (check = none ∧ emit c s = .next t))
    (hfits : check = none → c.Fits) : ∃ r, r.outValid = true ∧ RespondsWith f r := by
  cases check with
  | some k => exact ⟨faultResponse k, rfl, fun s => (hf s _).mpr (.inl ⟨k, rfl, rfl⟩)⟩
  | none =>
    obtain ⟨r, hvalid, hr⟩ := (hfits rfl).emit
    exact ⟨r, hvalid, fun s => (hf s _).mpr (.inr ⟨rfl, hr s⟩)⟩

theorem exec_responds (i : Instr) : ∃ r, r.outValid = true ∧ RespondsWith (exec i) r := by
  cases i with
  | enc1 v =>
    exact responds_of_checked (fun _ _ => execEnc1_eq_next) fun h =>
      plainComponents_fits (checkUnsigned_eq_none.mp h).2
  | enc2 v =>
    exact responds_of_checked (fun _ _ => execEnc2_eq_next) fun h =>
      trimmedComponents_fits (checkUnsigned_eq_none.mp h).2
  | enc3 v =>
    exact responds_of_checked (fun _ _ => execEnc3_eq_next) fun h =>
      signedComponents_fits (checkSigned_eq_none.mp h)

theorem serve_responds (q : Request) : ∃ r, r.outValid = true ∧ RespondsWith (serve q) r := by
  cases hd : decode q.word with
  | error e =>
    cases e with
    | illegalStrategy => exact ⟨faultResponse .illegalStrategy, rfl, fun _ => serve_eq_next.mpr (.inl ⟨hd, rfl⟩)⟩
  | ok i =>
    obtain ⟨r, hvalid, hr⟩ := exec_responds i
    exact ⟨r, hvalid, fun s => serve_eq_next.mpr (.inr ⟨i, hd, hr s⟩)⟩

/-- A slot has one response, valid exactly where the slot holds a request (spec/30_encoding.md R64, R65). -/
theorem serveSlot_responds (slot : Option Request) :
    ∃ r, r.outValid = slot.isSome ∧ RespondsWith (serveSlot slot) r := by
  cases slot with
  | none => exact ⟨idleResponse, rfl, serveSlot_none⟩
  | some q => exact serve_responds q

/-- Where no reset is active, a step is the service of the slot it takes. -/
theorem step_of_not_resetActive {s : State} (h : s.resetActive = false) : step s = serveSlot s.fetch s.advance := by
  simp [step, h]

/-- Settles O9: the step is a reset cycle or the service of a slot, and both go on. -/
theorem everyStepAnswers : Obligations.EveryStepAnswers := by
  refine ⟨fun s => ?_, fun i s => ?_⟩
  · cases hreset : s.resetActive with
    | true => exact ⟨s.resetCycle, step_eq_next.mpr (.inl ⟨hreset, rfl⟩)⟩
    | false =>
      obtain ⟨r, -, hr⟩ := serveSlot_responds s.fetch
      exact ⟨_, (step_of_not_resetActive hreset).trans (hr _)⟩
  · obtain ⟨r, -, hr⟩ := exec_responds i
    exact ⟨_, hr s⟩

/-- Settles O10: every starting state gets the one response of the operation and keeps the rest. -/
theorem execChangesOnlyTheResponse : Obligations.ExecChangesOnlyTheResponse := by
  intro i s
  obtain ⟨r, -, hr⟩ := exec_responds i
  exact ⟨s.respond r, hr s, rfl, rfl, fun a ha => Memory.read_of_le _ ha, fun s' => ⟨s'.respond r, hr s', rfl⟩⟩

/-- Settles O22: the reserved select has its fault response, a decoded request that of its operation. -/
theorem responseDependsOnRequestAlone : Obligations.ResponseDependsOnRequestAlone := serve_responds

end Sys2Proof.Machine
end

section
/-!
PROOFS. Runs of the block: each cycle answers the head of the queue made of what is in flight and what is presented, and
hands its tail on to the next cycle (spec/70_reset_and_hazards.md R186, R190).
-/
namespace Sys2Proof.Machine

/-- What an unreset block answers in turn: the slots in flight, then what the caller presents. -/
def State.queue (s : State) (xs : List Inputs) : List (Option Request) := s.inFlight ++ xs.map Inputs.request

/-- No cycle of the run is a reset cycle: `rst` is never asserted, or the build has no reset input. -/
def NeverReset (xs : List Inputs) (s : State) : Prop := (∀ x ∈ xs, x.rst = false) ∨ s.inFlight = []

/-- The slot on its own is answered by `r`, valid exactly where the slot holds a request. -/
def AnsweredBy (slot : Option Request) (r : Response) : Prop := answerTo slot = some r ∧ r.outValid = slot.isSome

/-- On its own, a slot gets the response that serving it drives from every state. -/
theorem answerTo_of_respondsWith {slot : Option Request} {r : Response} (h : RespondsWith (serveSlot slot) r) :
    answerTo slot = some r := by
  cases slot with
  | none =>
    have hcycle : cycle quietInputs State.reset = .next ((State.reset.drive quietInputs).advance.respond r) := h _
    simp [answerTo, hcycle]
  | some q =>
    have hcycle : cycle ⟨false, true, q.sel, q.value⟩ State.reset =
        .next ((State.reset.drive ⟨false, true, q.sel, q.value⟩).advance.respond r) := h _
    simp [answerTo, hcycle]

theorem resetActive_drive_of_neverReset {x : Inputs} {xs : List Inputs} {s : State} (h : NeverReset (x :: xs) s) :
    (s.drive x).resetActive = false :=
  (State.resetActive_eq_false _).mpr (h.imp_left fun hrst => hrst x List.mem_cons_self)

/-- One cycle drives the answer of the slot it takes and moves the pipeline by one slot. -/
theorem cycle_of_neverReset {x : Inputs} {xs : List Inputs} {s : State} (h : NeverReset (x :: xs) s) :
    ∃ r, AnsweredBy (s.drive x).fetch r ∧ cycle x s = .next ((s.drive x).advance.respond r) := by
  obtain ⟨r, hvalid, hr⟩ := serveSlot_responds (s.drive x).fetch
  exact ⟨r, ⟨answerTo_of_respondsWith hr, hvalid⟩,
    (step_of_not_resetActive (resetActive_drive_of_neverReset h)).trans (hr _)⟩

/-- The cycle takes the head of the queue and leaves the rest of it. -/
theorem queue_cons (x : Inputs) (xs : List Inputs) (s : State) (r : Response) :
    s.queue (x :: xs) = (s.drive x).fetch :: ((s.drive x).advance.respond r).queue xs := by
  cases hq : s.inFlight <;> simp [State.queue, State.fetch, hq]

theorem neverReset_advance {x : Inputs} {xs : List Inputs} {s : State} (r : Response) (h : NeverReset (x :: xs) s) :
    NeverReset xs ((s.drive x).advance.respond r) :=
  h.imp (fun hrst y hy => hrst y (List.mem_cons_of_mem _ hy)) fun hempty => by simp [hempty]

theorem responses_cons {x : Inputs} {s t : State} {rs : List Response} {xs : List Inputs}
    (hcycle : cycle x s = .next t) (hrest : responses xs t = some rs) :
    responses (x :: xs) s = some (t.out :: rs) := by
  simp [responses, hcycle, hrest]

/-- A run without reset cycles completes, and its responses answer the queue in order. -/
theorem responses_of_neverReset {xs : List Inputs} : ∀ {s : State}, NeverReset xs s →
    ∃ rs, responses xs s = some rs ∧ rs.length = xs.length ∧
      ∀ k < xs.length, ∃ slot r, (s.queue xs)[k]? = some slot ∧ rs[k]? = some r ∧ AnsweredBy slot r := by
  induction xs with
  | nil => exact fun _ => ⟨[], rfl, rfl, nofun⟩
  | cons x xs ih =>
    intro s h
    obtain ⟨r, hanswer, hcycle⟩ := cycle_of_neverReset h
    obtain ⟨rs, hrest, hlen, hslots⟩ := ih (neverReset_advance r h)
    refine ⟨r :: rs, responses_cons hcycle hrest, congrArg (· + 1) hlen, fun k hk => ?_⟩
    rw [queue_cons x xs s r]
    cases k with
    | zero => exact ⟨_, r, rfl, rfl, hanswer⟩
    | succ k => exact hslots k (Nat.lt_of_succ_lt_succ hk)

/-- Settles O23, by induction on what the caller drives. -/
theorem responsesLeaveInRequestOrder : Obligations.ResponsesLeaveInRequestOrder :=
  fun _ _ h => responses_of_neverReset h

end Sys2Proof.Machine
end

section
/-!
PROOFS. A request word goes through the ports unchanged: the decoder reads an operation back from the operation's own
word, and a word put where the next step takes its request from is the one that step serves (spec/30_encoding.md R60,
R61, R62; spec/10_state.md R24).
-/
namespace Sys2Proof

/-! ### Decoding an operation's own word -/

theorem Instr.wellFormed_iff (i : Instr) :
    i.wellFormed = true ↔ -((2 ^ 256 : Nat) : Int) ≤ i.operand ∧ i.operand < ((2 ^ 256 : Nat) : Int) := by
  simp only [wellFormed, fitsBelow, fitsAbove, Bool.and_eq_true, decide_eq_true_eq]

/-- On the range of the port, the operand assembled from the code of an integer is that integer. -/
theorem operandOf_operandCode {i : Int} (hlow : -((2 ^ 256 : Nat) : Int) ≤ i) (hhigh : i < ((2 ^ 256 : Nat) : Int)) :
    operandOf (operandCode i) = i :=
  BitVec.toInt_ofInt_eq_self (by decide) (by simpa using hlow) (by simpa using hhigh)

theorem decode_encode {i : Instr} (h : i.wellFormed = true) : decode (encode i) = .ok i := by
  obtain ⟨hlow, hhigh⟩ := i.wellFormed_iff.mp h
  have hoperand := operandOf_operandCode hlow hhigh
  simp only [decode, encode, Laws.selectField_requestWord, Laws.operandField_requestWord, hoperand]
  cases i <;> rfl

/-- Enough bits keep the whole request word. -/
theorem requestWord_toNat_mod {nbits : Nat} (hbits : 259 ≤ nbits) (w : RequestWord) :
    w.toNat % 2 ^ nbits = w.toNat :=
  Nat.mod_eq_of_lt (BitVec.toNat_lt_twoPow_of_le hbits)

/-- A number that is a request word is decoded as that word. -/
theorem decodeTableWord_toNat {nbits : Nat} (hbits : 259 ≤ nbits) (w : RequestWord) :
    decodeTableWord nbits w.toNat = (decode w).toOption := by
  simp only [decodeTableWord, requestWord_toNat_mod hbits, w.isLt, if_true, BitVec.ofNat_toNat, BitVec.setWidth_eq]
  cases decode w <;> rfl

namespace Machine

/-! ### Presenting a word -/

/-- The request a word stands for is presented as that word. -/
@[simp] theorem requestOf_word (w : RequestWord) : (requestOf w).word = w := by
  simp only [Request.word, requestOf, requestWord, selectField, operandField]
  exact (BitVec.extractLsb'_append_extractLsb'_eq_extractLsb' rfl).trans BitVec.extractLsb'_eq_self

/-- A number that is a request word is presented as that word's request. -/
theorem State.withFetchWord_toNat (s : State) {nbits : Nat} (hbits : 259 ≤ nbits) (w : RequestWord) :
    s.withFetchWord nbits w.toNat = s.present (requestOf w) := by
  simp only [withFetchWord, requestWord_toNat_mod hbits, BitVec.ofNat_toNat, BitVec.setWidth_eq]

/-- A presented request is the one the next step serves, in a build of any latency. -/
theorem step_present (s : State) (r : Request) : step (s.present r) = serve r (s.present r).advance := by
  rw [step_of_not_resetActive (s.resetActive_present r), s.fetch_present, serveSlot_some]

theorem serve_of_decode_ok {r : Request} {i : Instr} (h : decode r.word = .ok i) (s : State) :
    serve r s = exec i s := by
  simp only [serve, h]

/-- Settles O8: the step serves the presented request, and its word decodes back to the operation. -/
theorem presentedWordIsServedNext : Obligations.PresentedWordIsServedNext := by
  intro s i hi
  have hdecode := decode_encode hi
  constructor
  · rw [s.withFetchWord_toNat (by decide), step_present]
    exact serve_of_decode_ok (by rw [requestOf_word, hdecode]) _
  · rw [decodeTableWord_toNat (by decide), hdecode]
    rfl

end Machine
end Sys2Proof
end

section
/-!
PROOFS. A bank of instances takes each of its states where that state's own step takes it
(spec/60_exceptions.md R173, spec/10_state.md R30).
-/
namespace Sys2Proof.Machine

theorem stepBank_cons {s t : State} {bank bank' : List State} (hs : step s = .next t)
    (hbank : stepBank bank = .next bank') : stepBank (s :: bank) = .next (t :: bank') := by
  rw [stepBank, hs, andThen_next, hbank, andThen_next]

/-- Settles O28, by induction on the bank: the step of every member answers, so that of the bank does. -/
theorem instancesShareNothing : Obligations.InstancesShareNothing := by
  intro bank
  induction bank with
  | nil => exact ⟨[], rfl, rfl, nofun⟩
  | cons s bank ih =>
    obtain ⟨t, hs⟩ := everyStepAnswers.1 s
    obtain ⟨bank', hbank, hlen, hown⟩ := ih
    refine ⟨t :: bank', stepBank_cons hs hbank, congrArg (· + 1) hlen, fun k hk => ?_⟩
    cases k with
    | zero => exact ⟨s, t, rfl, rfl, hs⟩
    | succ k => exact hown k (Nat.lt_of_succ_lt_succ hk)

end Sys2Proof.Machine
end

section
/-!
PROOFS. Writes of the buffer at disjoint offsets commute (spec/20_memory.md R42).
-/
namespace Sys2Proof.Machine

/-- Two writes at disjoint offsets leave one buffer in either order: every cell lies in at most one of the two ranges,
and canonical buffers that read alike are equal. -/
theorem memWrite_comm {m m1 m12 m2 m21 : Memory} {a n v b k w : Nat} (hm : m.wf = true)
    (hdisj : a + n ≤ b ∨ b + k ≤ a) (h1 : memWrite m a n v = .next m1) (h12 : memWrite m1 b k w = .next m12)
    (h2 : memWrite m b k w = .next m2) (h21 : memWrite m2 a n v = .next m21) : m12 = m21 := by
  have hm1 := memWrite_wf hm h1
  have hm2 := memWrite_wf hm h2
  refine Memory.ext (memWrite_wf hm1 h12) (memWrite_wf hm2 h21) fun x => ?_
  rw [memWrite_get hm1 h12, memWrite_get hm h1, memWrite_get hm2 h21, memWrite_get hm h2]
  by_cases ha : a ≤ x ∧ x < a + n
  · rw [if_neg (show ¬ (b ≤ x ∧ x < b + k) by omega), if_pos ha, if_pos ha]
  · rw [if_neg ha, if_neg ha]

/-- Settles O36: inside their domains all four writes go on, and `memWrite_comm` equates the two results. -/
theorem disjointWritesCommute : Obligations.DisjointWritesCommute := by
  intro m a n v b k w hm hab hbk hn hk hv hw hdisj
  have ha (m' : Memory) := memWrite_of_domain m' hab hn hv
  have hb (m' : Memory) := memWrite_of_domain m' hbk hk hw
  have hcomm := memWrite_comm hm hdisj (ha m) (hb _) (hb m) (ha _)
  exact ⟨_, _, _, ha m, hb _, hb m, hcomm ▸ ha _⟩

end Sys2Proof.Machine
end

section
/-!
PROOFS. Request words and the opcode table: what the decoder reads from a word, and which rows of the table fit it
(spec/30_encoding.md R60 to R63, R74, R75).
-/
namespace Sys2Proof

open Sys2Proof.Machine

/-! ### The fields of a word -/

/-- A word is put together from its own fields. -/
theorem requestWord_fields (w : RequestWord) : requestWord (selectField w) (operandField w) = w :=
  Machine.requestOf_word w

theorem requestWord_inj {sel sel' : Select} {v v' : OperandWord} :
    requestWord sel v = requestWord sel' v' ↔ sel = sel' ∧ v = v' := by
  constructor
  · intro h
    have hsel := congrArg selectField h
    have hval := congrArg operandField h
    rw [Laws.selectField_requestWord, Laws.selectField_requestWord] at hsel
    rw [Laws.operandField_requestWord, Laws.operandField_requestWord] at hval
    exact ⟨hsel, hval⟩
  · rintro ⟨rfl, rfl⟩; rfl

/-! ### The decoder -/

theorem select_cases (sel : Select) : sel = 0 ∨ sel = 1 ∨ sel = 2 ∨ sel = 3 := by
  revert sel
  decide

/-- Everything the decoder accepts: the select names the operation, and the operand is that of the port. -/
theorem decode_eq_ok {w : RequestWord} {i : Instr} :
    decode w = .ok i ↔ selectField w = i.select ∧ i.operand = operandOf (operandField w) := by
  unfold decode
  generalize selectField w = sel
  generalize operandOf (operandField w) = v
  rcases select_cases sel with rfl | rfl | rfl | rfl <;> cases i <;> simp [Instr.select, Instr.operand, eq_comm]

/-- The decoder rejects exactly the reserved select. -/
theorem decode_eq_error {w : RequestWord} : decode w = .error .illegalStrategy ↔ selectField w = 0 := by
  unfold decode
  generalize selectField w = sel
  rcases select_cases sel with rfl | rfl | rfl | rfl <;> simp

/-- Settles O1. -/
theorem encodedOperationDecodesBack : Obligations.EncodedOperationDecodesBack := fun _ h => decode_encode h

/-- The operand of a port code lies on the range of the port. -/
theorem operandOf_bounds (v : OperandWord) :
    -((2 ^ 256 : Nat) : Int) ≤ operandOf v ∧ operandOf v < ((2 ^ 256 : Nat) : Int) :=
  ⟨v.le_toInt, v.toInt_lt⟩

/-- Settles O2: both fields of the word are those of the operation's own word. -/
theorem decodedWordEncodesBack : Obligations.DecodedWordEncodesBack := by
  intro w i h
  obtain ⟨hsel, hoperand⟩ := decode_eq_ok.mp h
  constructor
  · rw [Instr.wellFormed_iff, hoperand]
    exact operandOf_bounds _
  · calc encode i = requestWord (selectField w) (operandCode (operandOf (operandField w))) := by
          rw [encode, hsel, hoperand]
      _ = requestWord (selectField w) (operandField w) := by rw [operandCode, operandOf, BitVec.ofInt_toInt]
      _ = w := requestWord_fields w

/-! ### The opcode table -/

theorem rowOf_mask (i : Instr) : (rowOf i).mask = requestWord 3 0 := by
  have hmask : BitVec.ofNat 259 (3 <<< 257) = requestWord 3 0 := by decide +kernel
  cases i <;> exact hmask

theorem rowOf_pattern (i : Instr) : (rowOf i).pattern = requestWord i.select 0 := by
  have hpattern : ∀ n < 4, BitVec.ofNat 259 (n <<< 257) = requestWord (BitVec.ofNat 2 n) 0 := by decide +kernel
  cases i with
  | enc1 => exact hpattern 1 (by decide)
  | enc2 => exact hpattern 2 (by decide)
  | enc3 => exact hpattern 3 (by decide)

/-- The row of an operation fits exactly the words of its select. -/
theorem rowOf_fits (i : Instr) (w : RequestWord) : (rowOf i).fits w = true ↔ selectField w = i.select := by
  have hall : selectField w &&& 3 = selectField w := BitVec.and_allOnes
  have hand : w &&& (rowOf i).mask = requestWord (selectField w) 0 :=
    calc w &&& (rowOf i).mask = requestWord (selectField w) (operandField w) &&& requestWord 3 0 := by
          rw [requestWord_fields, rowOf_mask]
      _ = requestWord (selectField w) 0 := BitVec.and_append.trans (congrArg₂ requestWord hall BitVec.and_zero)
  rw [OpcodeRow.fits, beq_iff_eq, hand, rowOf_pattern, requestWord_inj, and_iff_left rfl]

theorem mem_opcodeRows {row : OpcodeRow} : row ∈ opcodeRows ↔ ∃ i, row = rowOf i := by
  constructor
  · intro h
    simp only [opcodeRows, List.mem_cons, List.not_mem_nil, or_false] at h
    rcases h with rfl | rfl | rfl
    · exact ⟨.enc1 0, rfl⟩
    · exact ⟨.enc2 0, rfl⟩
    · exact ⟨.enc3 0, rfl⟩
  · rintro ⟨i, rfl⟩
    cases i <;> simp [opcodeRows, rowOf]

/-- Rows tell their mnemonics apart, so the select alone names the row. -/
theorem rowOf_eq_iff (i j : Instr) : rowOf i = rowOf j ↔ i.select = j.select := by
  cases i <;> cases j <;> simp [rowOf, opcodeRow, Instr.select]

/-- Every select but the reserved one is that of some operation. -/
theorem select_eq_zero_iff (sel : Select) : sel = 0 ↔ ∀ i : Instr, sel ≠ i.select := by
  constructor
  · rintro rfl i
    cases i <;> simp [Instr.select]
  · intro h
    rcases select_cases sel with h0 | h1 | h2 | h3
    · exact h0
    · exact absurd h1 (h (.enc1 0))
    · exact absurd h2 (h (.enc2 0))
    · exact absurd h3 (h (.enc3 0))

/-- Settles O3: a row fits where its select is that of the word, which is what the decoder tests. -/
theorem decoderAgreesWithOpcodeTable : Obligations.DecoderAgreesWithOpcodeTable := by
  refine fun w => ⟨fun i h => ?_, ?_⟩
  · obtain ⟨hsel, hoperand⟩ := decode_eq_ok.mp h
    refine ⟨hoperand, fun row hrow => ?_⟩
    obtain ⟨j, rfl⟩ := mem_opcodeRows.mp hrow
    rw [rowOf_fits, hsel, rowOf_eq_iff, eq_comm]
  · rw [decode_eq_error, select_eq_zero_iff]
    simp only [mem_opcodeRows, forall_exists_index, forall_eq_apply_imp_iff, ← Bool.not_eq_true, rowOf_fits, ne_eq]

/-- Settles O4, by evaluating the decoder on the six words. -/
theorem sampleRequestWordsDecode : Obligations.SampleRequestWordsDecode := by
  unfold Obligations.SampleRequestWordsDecode
  decide +kernel

/-! ### Operand assembly -/

/-- The operand of a port code: bit 256 weighs `-2^256`, the bits below it are the wrapped view. -/
theorem operandOf_eq (v : OperandWord) :
    operandOf v = ((v.extractLsb' 0 256).toNat : Int) - if v.msb then ((2 ^ 256 : Nat) : Int) else 0 := by
  have hpow : (2 : Nat) ^ 257 = 2 * 2 ^ 256 := Nat.pow_succ'
  have hlt := hpow ▸ v.isLt
  rw [operandOf, BitVec.toInt_eq_msb_cond, BitVec.extractLsb'_toNat, Nat.shiftRight_zero, BitVec.msb_eq_decide, hpow]
  simp only [decide_eq_true_eq, Nat.add_one_sub_one]
  split <;> omega

theorem signOf_operandOf (v : OperandWord) : signOf (operandOf v) = v.msb := BitVec.msb_eq_toInt.symm

theorem wrapped_operandOf (v : OperandWord) : wrapped (operandOf v) = (v.extractLsb' 0 256).toNat := by
  have hlt := (v.extractLsb' 0 256).isLt
  change (operandOf v % ((2 ^ 256 : Nat) : Int)).toNat = _
  rw [operandOf_eq]
  split <;> omega

/-- On the port only the code of `-2^256` is out of range. -/
theorem inRange_operandOf (v : OperandWord) :
    inRange (operandOf v) = false ↔ v.msb = true ∧ v.extractLsb' 0 256 = 0 := by
  have hlt := (v.extractLsb' 0 256).isLt
  rw [← Bool.not_eq_true, inRange_iff, operandOf_eq, ← BitVec.toNat_inj]
  change _ ↔ _ ∧ _ = 0
  split <;> simp_all <;> omega

/-- Settles O5: the clauses are those of the two's-complement reading of the code. -/
theorem operandAssembly : Obligations.OperandAssembly := by
  intro v
  obtain ⟨hlow, hhigh⟩ := operandOf_bounds v
  refine ⟨BitVec.toInt_eq_msb_cond v, hlow, by omega, signOf_operandOf v, wrapped_operandOf v,
    inRange_operandOf v, ?_⟩
  rw [← Bool.not_eq_true, inRange_iff]
  omega

end Sys2Proof
end

section
/-!
PROOFS. What one step does with the slot it takes: the decoded operation, the reserved select, the empty slot, and the
combinational build (spec/30_encoding.md R64, R65; spec/70_reset_and_hazards.md R180, R189, R190).
-/
namespace Sys2Proof.Machine

/-- Where no reset is active, a step serves the head of the pipeline with what the ports present behind it. -/
theorem step_of_head {s : State} {slot : Option Request} (hreset : s.inputs.rst = false ∨ s.inFlight = [])
    (hhead : (s.inFlight ++ [s.inputs.request]).head? = some slot) : step s = serveSlot slot s.advance := by
  rw [s.fetch_eq_head, Option.some.injEq] at hhead
  rw [step_of_not_resetActive ((State.resetActive_eq_false s).mpr hreset), hhead]

theorem serve_of_decode_error {r : Request} (h : decode r.word = .error .illegalStrategy) (s : State) :
    serve r s = .next (s.respond (faultResponse .illegalStrategy)) :=
  serve_eq_next.mpr (.inl ⟨h, rfl⟩)

/-- Settles O6: the step serves the oldest slot, and serving a request is the decoded operation or the rejection. -/
theorem stepRunsTheDecodedOperation : Obligations.StepRunsTheDecodedOperation := by
  refine ⟨fun s r i hreset hhead hdecode => ?_, fun s r hreset hhead hdecode => ?_, fun s => ⟨rfl, rfl, rfl⟩⟩
  · exact (step_of_head hreset hhead).trans (serve_of_decode_ok hdecode _)
  · exact (step_of_head hreset hhead).trans (serve_of_decode_error hdecode _)

/-- Settles O7: an empty slot is answered by the idle response, whose buffer lists nothing. -/
theorem emptySlotGivesIdleResponse : Obligations.EmptySlotGivesIdleResponse := fun s hreset hhead =>
  ⟨s.advance.respond idleResponse, (step_of_head hreset hhead).trans (serveSlot_none _), rfl, rfl, rfl, rfl, rfl, rfl,
    fun _ hk => Memory.read_of_lt _ hk⟩

theorem Inputs.request_isSome (x : Inputs) : x.request.isSome = x.opValid := by
  unfold Inputs.request; split <;> simp_all

/-- Settles O42: with nothing in flight the step serves what the ports present, and a slot has one response. -/
theorem combinationalBuildAnswersAtOnce : Obligations.CombinationalBuildAnswersAtOnce := by
  intro s hempty
  obtain ⟨r, hvalid, hr⟩ := serveSlot_responds s.inputs.request
  refine ⟨s.advance.respond r, ?_, ?_, answerTo_of_respondsWith hr, ?_, rfl⟩
  · exact (step_of_head (.inr hempty) (by rw [hempty]; rfl)).trans (hr _)
  · exact hvalid.trans s.inputs.request_isSome
  · simp [hempty]

/-- Settles O26: after reset the buffer lists nothing and the response is the idle one. -/
theorem resetStateIsLegal : Obligations.ResetStateIsLegal := fun _ => ⟨Memory.wf_nil, .inl rfl⟩

end Sys2Proof.Machine
end

section
/-!
PROOFS. The flattened bus carries the cells of the buffer (spec/30_encoding.md R65).
-/
namespace Sys2Proof.Machine

theorem Response.outDataFrom_lt (r : Response) (n : Nat) : r.outDataFrom n < 2 ^ (8 * n) := by
  induction n with
  | zero => exact Nat.one_pos
  | succ n ih =>
    have hcell : (r.outByte.get n).toNat + 1 ≤ 2 ^ 8 := (r.outByte.get n).isLt
    calc r.outDataFrom n + (r.outByte.get n).toNat * 2 ^ (8 * n)
        < ((r.outByte.get n).toNat + 1) * 2 ^ (8 * n) := by
          rw [Nat.succ_mul (r.outByte.get n).toNat]
          omega
      _ ≤ 2 ^ 8 * 2 ^ (8 * n) := Nat.mul_le_mul_right _ hcell
      _ = 2 ^ (8 * (n + 1)) := by rw [← pow_add]; congr 1; omega

/-- Digit `k` of the flattened cells, to the base `2^8`, is cell `k`. -/
theorem Response.outDataFrom_digit (r : Response) {k n : Nat} (hk : k < n) :
    r.outDataFrom n / 2 ^ (8 * k) % 2 ^ 8 = (r.outByte.get k).toNat := by
  induction n with
  | zero => exact absurd hk (Nat.not_lt_zero k)
  | succ n ih =>
    rw [Response.outDataFrom]
    rcases Nat.lt_succ_iff_lt_or_eq.mp hk with hlt | rfl
    · obtain ⟨d, rfl⟩ := Nat.exists_eq_add_of_lt hlt
      have hsplit : 2 ^ (8 * (k + d + 1)) = 2 ^ 8 * 2 ^ (8 * d) * 2 ^ (8 * k) := by ring
      rw [hsplit, ← Nat.mul_assoc, Nat.add_mul_div_right _ _ (Nat.two_pow_pos _), Nat.mul_left_comm,
        Nat.add_mul_mod_self_left, ih hlt]
    · rw [Nat.add_mul_div_right _ _ (Nat.two_pow_pos _), Nat.div_eq_of_lt (r.outDataFrom_lt k), Nat.zero_add,
        Nat.mod_eq_of_lt (r.outByte.get k).isLt]

/-- Settles O41: the bus holds all 34 digits, and byte lane `k` reads digit `k`. -/
theorem flattenedBusCarriesCells : Obligations.FlattenedBusCarriesCells := by
  intro r k hk
  apply BitVec.eq_of_toNat_eq
  have hbus : r.outData.toNat = r.outDataFrom 34 :=
    (BitVec.toNat_ofNat ..).trans (Nat.mod_eq_of_lt (r.outDataFrom_lt 34))
  rw [BitVec.extractLsb'_toNat, hbus, Nat.shiftRight_eq_div_pow, r.outDataFrom_digit hk]

end Sys2Proof.Machine
end

section
/-!
PROOFS. The trailing zeros of the operand: `lsb` of an odd multiple of `2^k` is `k`, so shifting a non-zero operand by
its own `lsb` leaves an odd integer (spec/41_lsb_finder.md R110 to R113).
-/
namespace Sys2Proof.Machine

/-- Subtracting from `2^256` inverts the bits of the predecessor. -/
theorem testBit_neg256 {u : Nat} (hpos : 0 < u) (hlt : u < 2 ^ 256) (j : Nat) :
    (neg256 u).testBit j = (decide (j < 256) && !(u - 1).testBit j) := by
  have hneg : neg256 u = 2 ^ 256 - (u - 1 + 1) := by
    change (2 ^ 256 - u) % 2 ^ 256 = _
    omega
  rw [hneg, Nat.testBit_two_pow_sub_succ (by omega)]

theorem lt_256_of_two_pow_mul {k n : Nat} (hn : 0 < n) (h : 2 ^ k * n < 2 ^ 256) : k < 256 :=
  (Nat.pow_lt_pow_iff_right Nat.one_lt_two).mp ((Nat.le_mul_of_pos_right _ hn).trans_lt h)

/-- Isolation keeps the lowest set bit alone: below it both words are clear, above it they are inverse. -/
theorem isolate_two_pow_mul_odd {k q : Nat} (hlt : 2 ^ k * (2 * q + 1) < 2 ^ 256) :
    isolate (2 ^ k * (2 * q + 1)) = 2 ^ k := by
  have hk : k < 256 := lt_256_of_two_pow_mul (by omega) hlt
  have hpow := Nat.two_pow_pos k
  have hpred : 2 ^ k * (2 * q + 1) - 1 = 2 ^ k * (2 * q) + (2 ^ k - 1) := by rw [Nat.mul_add]; omega
  apply Nat.eq_of_testBit_eq
  intro j
  rw [isolate, Nat.testBit_and, testBit_neg256 (by positivity) hlt, hpred, Nat.testBit_two_pow_mul_add _ (by omega),
    Nat.testBit_two_pow_mul, Nat.testBit_two_pow]
  rcases Nat.lt_or_ge j k with hj | hj
  · simp [Nat.not_le.mpr hj, hj.ne']
  · obtain ⟨d, rfl⟩ := Nat.exists_eq_add_of_le hj
    cases d with
    | zero => simp [hk]
    | succ d => simp +contextual [Nat.testBit_succ, Nat.mul_add_div]

theorem msb_two_pow (k : Nat) : msb (2 ^ k) = k := by rw [msb_eq_log2, Nat.log2_two_pow]

/-- The wrapped view keeps the trailing zeros of the operand. -/
theorem wrapped_two_pow_mul_odd {k : Nat} {m : Int} (hk : k < 256) (hm : m % 2 = 1) :
    ∃ q, wrapped (2 ^ k * m) = 2 ^ k * (2 * q + 1) := by
  obtain ⟨d, hd⟩ := Nat.exists_eq_add_of_lt hk
  have hsplit : ((2 ^ 256 : Nat) : Int) = 2 ^ k * (2 * 2 ^ d) := by rw [hd]; push_cast; ring
  have hodd : m % (2 * 2 ^ d) % 2 = 1 := (Int.emod_emod_of_dvd m (Dvd.intro _ rfl)).trans hm
  have hnonneg : 0 ≤ m % (2 * 2 ^ d) := Int.emod_nonneg m (by positivity)
  obtain ⟨q, hq⟩ : ∃ q : Nat, m % (2 * 2 ^ d) = 2 * q + 1 := ⟨(m % (2 * 2 ^ d) / 2).toNat, by omega⟩
  refine ⟨q, ?_⟩
  change (2 ^ k * m % ((2 ^ 256 : Nat) : Int)).toNat = _
  rw [hsplit, Int.mul_emod_mul_of_pos _ _ (by positivity), hq]
  exact_mod_cast Int.toNat_natCast _

/-- `lsb` counts the trailing zeros (spec/41_lsb_finder.md R112, R113). -/
theorem lsb_two_pow_mul_odd {k : Nat} {m : Int} (hk : k < 256) (hm : m % 2 = 1) : lsb (2 ^ k * m) = k := by
  obtain ⟨q, hq⟩ := wrapped_two_pow_mul_odd hk hm
  rw [lsb, hq, isolate_two_pow_mul_odd (hq ▸ wrapped_lt _), msb_two_pow]

theorem exists_two_pow_mul_odd {i : Int} (h0 : i ≠ 0) (hi : i.natAbs < 2 ^ 256) :
    ∃ k m, k < 256 ∧ m % 2 = 1 ∧ i = 2 ^ k * m := by
  obtain ⟨k, n, hodd, hn⟩ := Nat.exists_eq_two_pow_mul_odd (Int.natAbs_ne_zero.mpr h0)
  have hk : k < 256 := lt_256_of_two_pow_mul hodd.pos (hn ▸ hi)
  have hn2 := Nat.odd_iff.mp hodd
  rcases Int.natAbs_eq i with hpos | hneg
  · exact ⟨k, n, hk, by omega, by rw [hpos, hn]; push_cast; rfl⟩
  · exact ⟨k, -n, hk, by omega, by rw [hneg, hn]; push_cast; ring⟩

theorem lsb_zero : lsb 0 = 0 := by decide +kernel

/-- An operand with trailing zeros, shifted by their number, is odd. -/
theorem shiftRightSigned_lsb_odd {i : Int} (hi : i.natAbs < 2 ^ 256) (hlsb : lsb i ≠ 0) :
    shiftRightSigned i (lsb i) % 2 = 1 := by
  have h0 : i ≠ 0 := fun h => hlsb (h ▸ lsb_zero)
  obtain ⟨k, m, hk, hm, rfl⟩ := exists_two_pow_mul_odd h0 hi
  rw [lsb_two_pow_mul_odd hk hm, shiftRightSigned, Nat.cast_pow, Nat.cast_ofNat,
    Int.mul_ediv_cancel_left m (by positivity)]
  exact hm

theorem clampedExpansion_of_le {i : Int} (h : lsb i ≤ 32) : clampedExpansion i = lsb i := if_neg (Nat.not_lt.mpr h)
theorem clampedExpansion_of_lt {i : Int} (h : 32 < lsb i) : clampedExpansion i = 0 := if_pos h

/-- Where ENC3 shifts at all, it shifts the trailing zeros out (spec/42_variable_length_encoder.md R131). -/
theorem shiftRightSigned_clampedExpansion_odd {i : Int} (hi : i.natAbs < 2 ^ 256) (he : clampedExpansion i ≠ 0) :
    shiftRightSigned i (clampedExpansion i) % 2 = 1 := by
  rcases Nat.lt_or_ge 32 (lsb i) with hlt | hle
  · exact absurd (clampedExpansion_of_lt hlt) he
  · rw [clampedExpansion_of_le hle] at he ⊢
    exact shiftRightSigned_lsb_odd hi he

/-- Both shifts are one on a non-negative operand. -/
theorem natCast_shiftRightUnsigned {i : Int} (hi : 0 ≤ i) (e : Nat) :
    (shiftRightUnsigned i.toNat e : Int) = shiftRightSigned i e := by
  rw [shiftRightUnsigned, shiftRightSigned, Int.natCast_ediv, Int.toNat_of_nonneg hi]

end Sys2Proof.Machine
end

section
/-!
PROOFS. What the normal response of a path carries, cell by cell, with the flag byte as the concatenation of its fields
(spec/43_meta_encoder.md R147; spec/44_value_serializer.md R152, R153).
-/
namespace Sys2Proof.Machine

/-! ### The flag byte -/

/-- `flags[6]`: the value stored on this path is a complement (spec/42_variable_length_encoder.md R123). -/
def Path.complemented : Path → Bool
  | .signedNegative => true
  | _ => false

/-- The flag byte as the concatenation of its fields (spec/43_meta_encoder.md R147). -/
def Path.flagByte (p : Path) (y : Nat) : Byte :=
  0#1 ++ BitVec.ofBool p.complemented ++ BitVec.ofBool p.expanded ++ BitVec.ofNat 5 (byteWidth y - 1)

/-- The width and the flags share no bit, so the disjunction of the meta encoder is the concatenation. -/
theorem Path.flagByte_eq (p : Path) {y : Nat} (hy : y < 2 ^ 256) :
    p.flagByte y = BitVec.ofNat 8 ((byteWidth y - 1) ||| p.flags) := by
  have hfields : ∀ x < 32, BitVec.ofNat 8 (x ||| p.flags) =
      0#1 ++ BitVec.ofBool p.complemented ++ BitVec.ofBool p.expanded ++ BitVec.ofNat 5 x := by
    cases p <;> decide
  have hwidth := byteWidth_le_32 hy
  exact (hfields _ (by omega)).symm

theorem Path.flags_of_not_expanded {p : Path} (h : p.expanded = false) : p.flags = 0 := by
  cases p <;> simp_all [Path.expanded, Path.flags]

theorem Path.flagByte_bit7 (p : Path) (y : Nat) : (p.flagByte y).getLsbD 7 = false := by
  rw [Path.flagByte, BitVec.getLsbD_append, BitVec.getLsbD_append, BitVec.getLsbD_append]
  simp

theorem Path.flagByte_bit6 (p : Path) (y : Nat) : (p.flagByte y).getLsbD 6 = p.complemented := by
  rw [Path.flagByte, BitVec.getLsbD_append, BitVec.getLsbD_append, BitVec.getLsbD_append]
  simp

theorem Path.flagByte_bit5 (p : Path) (y : Nat) : (p.flagByte y).getLsbD 5 = p.expanded := by
  rw [Path.flagByte, BitVec.getLsbD_append, BitVec.getLsbD_append, BitVec.getLsbD_append]
  simp

theorem Path.flagByte_width (p : Path) {y : Nat} (hy : y < 2 ^ 256) :
    (p.flagByte y).toNat % 32 = byteWidth y - 1 := by
  have hwidth := byteWidth_le_32 hy
  rw [Path.flagByte, BitVec.toNat_append, ← Nat.shiftLeft_add_eq_or_of_lt (BitVec.isLt _), Nat.shiftLeft_eq,
    Nat.mul_add_mod_self_right, BitVec.toNat_ofNat]
  omega

/-! ### The cells of the packed record -/

/-- The number of meta bytes of a path (spec/43_meta_encoder.md R141). -/
def Path.metaBytes (p : Path) : Nat := if p.expanded then 2 else 1

/-- `r` is the normal response of path `p` with count `e` and stored magnitude `y`. -/
structure Carries (r : Response) (p : Path) (e y : Nat) : Prop where
  valid : r.outValid = true
  no_fault : r.outFault = false
  no_cause : r.outCause = 0
  canonical : r.outByte.wf = true
  length : r.outLen.toNat = p.metaBytes + byteWidth y
  flag_cell : r.outByte.get 0 = p.flagByte y
  count_cell : p.expanded = true → r.outByte.get 1 = BitVec.ofNat 8 e
  value_cells : ∀ k < byteWidth y, r.outByte.get (p.metaBytes + k) = beByte y (byteWidth y) k
  padding : ∀ a, p.metaBytes + byteWidth y ≤ a → r.outByte.get a = 0x00

/-- The two fields of an expanded path's meta number are its two bytes. -/
theorem handOn_metaField_expanded {p : Path} {e y : Nat} (he : e < 256) (hexp : p.expanded = true) :
    (handOn p e y).metaField = ((byteWidth y - 1) ||| p.flags) * 256 + e := by
  rw [handOn_metaField, if_pos hexp, ← Nat.shiftLeft_add_eq_or_of_lt (i := 8) he, Nat.shiftLeft_eq]

theorem handOn_flag_cell (p : Path) {e y : Nat} (he : e < 256) (hy : y < 2 ^ 256) :
    beByte (handOn p e y).metaField p.metaBytes 0 = p.flagByte y := by
  rw [Path.flagByte_eq p hy, Path.metaBytes, beByte]
  cases hexp : p.expanded with
  | false => simp [handOn_metaField, hexp, Path.flags_of_not_expanded hexp]
  | true =>
    have hshift : (((byteWidth y - 1) ||| p.flags) * 256 + e) / 2 ^ 8 = (byteWidth y - 1) ||| p.flags := by omega
    exact congrArg (BitVec.ofNat 8) ((congrArg (· / 2 ^ 8) (handOn_metaField_expanded he hexp)).trans hshift)

theorem handOn_count_cell {p : Path} {e y : Nat} (he : e < 256) (hexp : p.expanded = true) :
    beByte (handOn p e y).metaField p.metaBytes 1 = BitVec.ofNat 8 e := by
  rw [handOn_metaField_expanded he hexp, Path.metaBytes, if_pos hexp, beByte]
  apply BitVec.eq_of_toNat_eq
  simp only [BitVec.toNat_ofNat]
  omega

/-- Emitting the record of a path drives the response of that path. -/
theorem emit_handOn (p : Path) {e y : Nat} (he : e < 256) (hy : y < 2 ^ 256) :
    ∃ r, Carries r p e y ∧ RespondsWith (emit (handOn p e y)) r := by
  have hfits := handOn_fits p he hy
  obtain ⟨hm, hmf⟩ := (beDomain_iff ..).mp hfits.metaFits
  obtain ⟨hv, hvf⟩ := (beDomain_iff ..).mp hfits.valueFits
  obtain ⟨m, hpack⟩ := pack_of_fits hm hmf hv hvf hfits.room
  obtain ⟨-, -, hroom, -, hwf, hcells⟩ := pack_eq_next hpack
  have hmeta : (handOn p e y).metaWidth = p.metaBytes := handOn_metaWidth p e y
  have hpos : 1 ≤ p.metaBytes := hmeta ▸ hm
  simp only [hmeta, handOn_valWidth, handOn_y] at hcells hroom
  refine ⟨normalResponse m (p.metaBytes + byteWidth y), ?_, fun s => emit_eq_next.mpr ⟨m, _, hpack, ?_⟩⟩
  · exact {
      valid := rfl
      no_fault := rfl
      no_cause := rfl
      canonical := hwf
      length := by rw [normalResponse_outLen, BitVec.toNat_ofNat]; omega
      flag_cell := by
        rw [normalResponse_outByte, hcells, if_pos (by omega), handOn_flag_cell p he hy]
      count_cell := fun hexp => by
        rw [normalResponse_outByte, hcells, if_pos (by simp [Path.metaBytes, hexp]), handOn_count_cell he hexp]
      value_cells := fun k hk => by
        rw [normalResponse_outByte, hcells, if_neg (by omega), if_pos (by omega), Nat.add_sub_cancel_left]
      padding := fun a ha => by
        rw [normalResponse_outByte, hcells, if_neg (by omega), if_neg (by omega)] }
  · rw [hmeta, handOn_valWidth]

end Sys2Proof.Machine
end

section
/-!
PROOFS. The paths of the strategies: each hands on the record of a path whose stored magnitude has the parity a nonzero
count asks for (spec/42_variable_length_encoder.md R124, R126, R130; spec/30_encoding.md R71).
-/
namespace Sys2Proof.Machine

/-- `c` is what path `p` hands on for the count `e` and the magnitude `y`, as the strategies choose them. -/
structure PathRecord (c : EncodeComponents) (p : Path) (e y : Nat) : Prop where
  record : c = handOn p e y
  count_lt : e < 256
  magnitude_lt : y < 2 ^ 256
  parity : p.expanded = true → e ≠ 0 → y.testBit 0 = !p.complemented

theorem plainComponents_record {i : Int} (hi : i.natAbs < 2 ^ 256) :
    PathRecord (plainComponents i) .plain 0 i.toNat where
  record := rfl
  count_lt := by decide
  magnitude_lt := by omega
  parity := nofun

theorem trimmedComponents_fallback {i : Int} (h : lsb i < 32) : trimmedComponents i = handOn .fallback 0 i.toNat :=
  if_pos h

theorem trimmedComponents_expanded {i : Int} (h : 32 ≤ lsb i) :
    trimmedComponents i = handOn .trimmed (lsb i) (shiftRightUnsigned i.toNat (lsb i)) :=
  if_neg (Nat.not_lt.mpr h)

theorem trimmedComponents_record {i : Int} (hpos : 0 ≤ i) (hi : i.natAbs < 2 ^ 256) :
    ∃ p e y, PathRecord (trimmedComponents i) p e y := by
  have hnat : i.toNat < 2 ^ 256 := by omega
  rcases Nat.lt_or_ge (lsb i) 32 with hlt | hge
  · exact ⟨.fallback, 0, i.toNat, trimmedComponents_fallback hlt, by decide, hnat, nofun⟩
  · refine ⟨_, _, _, trimmedComponents_expanded hge, lsb_lt_256 i, (shiftRightUnsigned_le ..).trans_lt hnat,
      fun _ he => ?_⟩
    have hodd := shiftRightSigned_lsb_odd hi he
    rw [← natCast_shiftRightUnsigned hpos] at hodd
    rw [Nat.testBit_zero]
    exact decide_eq_true (by omega)

theorem signedComponents_nonneg {i : Int} (h : 0 ≤ i) : signedComponents i =
    handOn .signedNonNegative (clampedExpansion i) (shiftRightUnsigned i.toNat (clampedExpansion i)) :=
  if_neg (mt (signOf_iff i).mp (not_lt.mpr h))

theorem signedComponents_neg {i : Int} (h : i < 0) : signedComponents i =
    handOn .signedNegative (clampedExpansion i) (complement (shiftRightSigned i (clampedExpansion i))).toNat :=
  if_pos ((signOf_iff i).mpr h)

theorem signedComponents_record {i : Int} (hi : i.natAbs < 2 ^ 256) :
    ∃ p e y, PathRecord (signedComponents i) p e y := by
  rcases lt_or_ge i 0 with hneg | hpos
  · refine ⟨_, _, _, signedComponents_neg hneg, clampedExpansion_lt_256 i,
      (complement_shiftRightSigned_lt _ hneg).trans hi, fun _ he => ?_⟩
    have hodd := shiftRightSigned_clampedExpansion_odd hi he
    rw [Nat.testBit_zero]
    exact decide_eq_false (by unfold complement; omega)
  · refine ⟨_, _, _, signedComponents_nonneg hpos, clampedExpansion_lt_256 i,
      (shiftRightUnsigned_le ..).trans_lt (by omega), fun _ he => ?_⟩
    have hodd := shiftRightSigned_clampedExpansion_odd hi he
    rw [← natCast_shiftRightUnsigned hpos] at hodd
    rw [Nat.testBit_zero]
    exact decide_eq_true (by omega)

/-- Emitting the record of a path drives the response of that path. -/
theorem PathRecord.emit {c : EncodeComponents} {p : Path} {e y : Nat} (h : PathRecord c p e y) :
    ∃ r, Carries r p e y ∧ RespondsWith (emit c) r :=
  h.record ▸ emit_handOn p h.count_lt h.magnitude_lt

end Sys2Proof.Machine
end

section
/-!
PROOFS. ENC2 and ENC3 agree on an operand with exactly 32 trailing zeros (spec/30_encoding.md R72).
-/
namespace Sys2Proof.Machine

/-- The record depends on the path through its flags and its format only. -/
theorem handOn_trimmed_eq (e y : Nat) : handOn .trimmed e y = handOn .signedNonNegative e y := rfl

/-- At the common bound of both strategies they hand on the same record. -/
theorem trimmedComponents_eq_signedComponents {i : Int} (hi : 0 ≤ i) (hlsb : lsb i = 32) :
    trimmedComponents i = signedComponents i := by
  have hsign : signOf i = false := decide_eq_false (not_lt.mpr hi)
  simp [trimmedComponents, signedComponents, clampedExpansion, hlsb, hsign, Config.type2MinExpansion,
    Config.type3MaxExpansion, handOn_trimmed_eq]

/-- Settles O15: the checks of both operations pass, and both emit one record. -/
theorem enc2AndEnc3AgreeAt32 : Obligations.Enc2AndEnc3AgreeAt32 := by
  intro y s hy hlt
  have hi : ((y * 2 ^ 32 : Nat) : Int).natAbs < 2 ^ 256 := hlt
  have hpos : 0 ≤ ((y * 2 ^ 32 : Nat) : Int) := Int.natCast_nonneg _
  have hlsb : lsb ((y * 2 ^ 32 : Nat) : Int) = 32 := by
    have hodd := lsb_two_pow_mul_odd (k := 32) (m := (y : Int)) (by decide) (by omega)
    rwa [mul_comm, ← Nat.cast_ofNat, ← Nat.cast_pow, ← Nat.cast_mul] at hodd
  obtain ⟨p, e, v, hrecord⟩ := trimmedComponents_record hpos hi
  obtain ⟨r, hcarries, hr⟩ := hrecord.emit
  refine ⟨s.respond r, execEnc2_eq_next.mpr (.inr ⟨checkUnsigned_eq_none.mpr ⟨hpos, hi⟩, hr s⟩),
    execEnc3_eq_next.mpr (.inr ⟨checkSigned_eq_none.mpr hi, ?_⟩), hcarries.no_fault⟩
  rw [← trimmedComponents_eq_signedComponents hpos hlsb, hr s]

end Sys2Proof.Machine
end

section
/-!
PROOFS. Every step keeps the ports legal (spec/30_encoding.md R65, R66, R69, R70, R71).
-/
namespace Sys2Proof.Machine

/-! ### The value bytes -/

/-- The most significant value byte of a value of more than one byte is not zero (spec/30_encoding.md R71(a)). -/
theorem beByte_leading_ne_zero {y : Nat} (h : byteWidth y ≠ 1) : beByte y (byteWidth y) 0 ≠ 0x00 := by
  have h0 : y ≠ 0 := by rintro rfl; exact h rfl
  have hwidth : 8 * (byteWidth y - 1 - 0) ≤ msb y := by unfold byteWidth; omega
  have hlow : 1 ≤ y / 2 ^ (8 * (byteWidth y - 1 - 0)) := by
    rw [Nat.one_le_div_iff (Nat.two_pow_pos _)]
    exact (Nat.pow_le_pow_right two_pos hwidth).trans (msb_eq_log2 y ▸ Nat.log2_self_le h0)
  have hhigh : y / 2 ^ (8 * (byteWidth y - 1 - 0)) < 2 ^ 8 := by
    have hpos := byteWidth_pos y
    refine Nat.div_lt_of_lt_mul ((lt_two_pow_byteWidth y).trans_eq ?_)
    rw [← pow_add]
    exact congrArg (2 ^ ·) (by omega)
  intro hzero
  have hnat := congrArg BitVec.toNat hzero
  rw [beByte, BitVec.toNat_ofNat, Nat.mod_eq_of_lt hhigh] at hnat
  exact absurd hnat (Nat.pos_iff_ne_zero.mp hlow)

/-- The last value byte has the parity of the value. -/
theorem beByte_last_bit0 (y n : Nat) : (beByte y n (n - 1)).getLsbD 0 = y.testBit 0 := by
  rw [beByte, BitVec.getLsbD_ofNat, Nat.sub_self, Nat.mul_zero, pow_zero, Nat.div_one]
  rfl

/-! ### Legal responses -/

/-- What a path carries is a legal normal response, where the value has the parity of the path. -/
theorem Carries.legalNormal {r : Response} {p : Path} {e y : Nat} (h : Carries r p e y) (hy : y < 2 ^ 256)
    (he : e < 256) (hparity : p.expanded = true → e ≠ 0 → y.testBit 0 = !p.complemented) : LegalNormal r where
  valid := h.valid
  no_fault := h.no_fault
  no_cause := h.no_cause
  canonical := h.canonical
  bit7_clear := by rw [h.flag_cell, p.flagByte_bit7]
  not_only_with_expand := by
    rw [h.flag_cell, p.flagByte_bit6, p.flagByte_bit5]
    cases p <;> decide
  length := by
    have hpos := byteWidth_pos y
    rw [h.length, h.flag_cell, p.flagByte_bit5, p.flagByte_width hy, Nat.sub_add_cancel hpos]
    rfl
  padding := fun a ha => h.padding a (h.length ▸ ha)
  no_leading_zero := by
    have hpos := byteWidth_pos y
    rw [h.flag_cell, p.flagByte_bit5, p.flagByte_width hy]
    intro hwidth
    have hcell := h.value_cells 0 hpos
    exact hcell ▸ beByte_leading_ne_zero (by omega)
  parity := by
    have hpos := byteWidth_pos y
    rw [h.flag_cell, p.flagByte_bit5, p.flagByte_bit6, h.length]
    intro hexp hcount
    have hne : e ≠ 0 := by rintro rfl; exact hcount (h.count_cell hexp)
    rw [Nat.add_sub_assoc hpos, h.value_cells _ (by omega), beByte_last_bit0, hparity hexp hne]

theorem LegalResponse.canonical {r : Response} (h : LegalResponse r) : r.outByte.wf = true := by
  rcases h with rfl | ⟨c, rfl⟩ | hnormal
  · rfl
  · rfl
  · exact hnormal.canonical

/-- Emitting the record of a path drives a legal response. -/
theorem PathRecord.emit_legal {c : EncodeComponents} {p : Path} {e y : Nat} (h : PathRecord c p e y) {s t : State}
    (ht : Machine.emit c s = .next t) : LegalResponse t.out := by
  obtain ⟨r, hcarries, hr⟩ := h.emit
  rw [hr s, Host.Outcome.next.injEq] at ht
  exact .inr (.inr (ht ▸ hcarries.legalNormal h.magnitude_lt h.count_lt h.parity))

theorem exec_legal {i : Instr} {s t : State} (ht : exec i s = .next t) : LegalResponse t.out := by
  cases i with
  | enc1 v =>
    rcases execEnc1_eq_next.mp ht with ⟨c, -, rfl⟩ | ⟨hcheck, hemit⟩
    · exact .inr (.inl ⟨c, rfl⟩)
    · exact (plainComponents_record (checkUnsigned_eq_none.mp hcheck).2).emit_legal hemit
  | enc2 v =>
    rcases execEnc2_eq_next.mp ht with ⟨c, -, rfl⟩ | ⟨hcheck, hemit⟩
    · exact .inr (.inl ⟨c, rfl⟩)
    · obtain ⟨hpos, hi⟩ := checkUnsigned_eq_none.mp hcheck
      obtain ⟨p, e, y, hrecord⟩ := trimmedComponents_record hpos hi
      exact hrecord.emit_legal hemit
  | enc3 v =>
    rcases execEnc3_eq_next.mp ht with ⟨c, -, rfl⟩ | ⟨hcheck, hemit⟩
    · exact .inr (.inl ⟨c, rfl⟩)
    · obtain ⟨p, e, y, hrecord⟩ := signedComponents_record (checkSigned_eq_none.mp hcheck)
      exact hrecord.emit_legal hemit

theorem serve_legal {q : Request} {s t : State} (ht : serve q s = .next t) : LegalResponse t.out := by
  rcases serve_eq_next.mp ht with ⟨-, rfl⟩ | ⟨i, -, hexec⟩
  · exact .inr (.inl ⟨_, rfl⟩)
  · exact exec_legal hexec

/-- Serving a request leaves the pipeline alone. -/
theorem serve_inFlight {q : Request} {s t : State} (ht : serve q s = .next t) : t.inFlight = s.inFlight := by
  obtain ⟨r, -, hr⟩ := serve_responds q
  rw [hr s, Host.Outcome.next.injEq] at ht
  rw [← ht, State.respond_inFlight]

/-- Every step shows a legal response, whatever the ports showed before. -/
theorem step_legal {s t : State} (ht : step s = .next t) : LegalResponse t.out := by
  rcases step_eq_next.mp ht with ⟨-, rfl⟩ | ⟨-, -, rfl⟩ | ⟨-, q, -, hserve⟩
  · exact .inl rfl
  · exact .inl rfl
  · exact serve_legal hserve

theorem step_inFlight_length {s t : State} (ht : step s = .next t) : t.inFlight.length = s.inFlight.length := by
  rcases step_eq_next.mp ht with ⟨-, rfl⟩ | ⟨-, -, rfl⟩ | ⟨-, q, -, hserve⟩
  · simp
  · exact s.advance_length
  · rw [serve_inFlight hserve, s.advance_length]

/-- Settles O27: each response is legal on its own account, and every legal response is canonical. -/
theorem stepKeepsLegalPorts : Obligations.StepKeepsLegalPorts := fun _ _ _ ht =>
  ⟨⟨LegalResponse.canonical (step_legal ht), step_legal ht⟩, step_inFlight_length ht⟩

end Sys2Proof.Machine
end

section
/-!
PROOFS. The hardware form, block by block: each port carries the value the definition of the operation gives
(spec/40_msb_finder.md R102, R106; spec/41_lsb_finder.md R114; spec/42_variable_length_encoder.md R132).
-/
namespace Sys2Proof.Machine

/-! ### The finders -/

/-- The priority encoder over the lowest `n` inputs finds the highest set bit of the number they hold. -/
theorem priorityEncode_eq (v : Magnitude) (n : Nat) : priorityEncode v n = msb (v.toNat % 2 ^ n) := by
  induction n with
  | zero => simp [priorityEncode, Nat.mod_one, msb]
  | succ k ih =>
    have hlow := Nat.mod_lt v.toNat (Nat.two_pow_pos k)
    rw [priorityEncode, Nat.mod_pow_succ, ← Nat.toNat_testBit, ← BitVec.testBit_toNat]
    cases hbit : v.toNat.testBit k with
    | false => simpa using ih
    | true =>
      have hne : v.toNat % 2 ^ k + 2 ^ k ≠ 0 := by omega
      rw [if_pos rfl, Bool.toNat_true, Nat.mul_one, msb_eq_log2, eq_comm, Nat.log2_eq_iff hne]
      omega

theorem msbPort_toNat (v : Magnitude) : (msbPort v).toNat = msb v.toNat := by
  rw [msbPort, priorityEncode_eq, Nat.mod_eq_of_lt v.isLt, BitVec.toNat_ofNat, Nat.mod_eq_of_lt (msb_lt_256 v.isLt)]

/-- `m[7:3]` is one less than the byte width (spec/40_msb_finder.md R106). -/
theorem msbPort_width (v : Magnitude) : (msbPort v).extractLsb' 3 5 = BitVec.ofNat 5 (byteWidth v.toNat - 1) := by
  apply BitVec.eq_of_toNat_eq
  rw [BitVec.extractLsb'_toNat, msbPort_toNat, Nat.shiftRight_eq_div_pow, BitVec.toNat_ofNat]
  rfl

theorem lsbPort_toNat (v : OperandWord) : (lsbPort v).toNat = lsb (operandOf v) := by
  rw [lsbPort, msbPort_toNat, lsb, wrapped_operandOf, BitVec.toNat_and, BitVec.toNat_neg]
  rfl

/-! ### The checks -/

/-- The range check on the port bits (spec/30_encoding.md R61). -/
theorem checkSigned_operandOf (v : OperandWord) :
    checkSigned (operandOf v) = if v.msb ∧ wrappedPort v = 0 then some .outOfRange else none := by
  have hrange : inRange (operandOf v) = false ↔ v.msb ∧ wrappedPort v = 0 := inRange_operandOf v
  rw [checkSigned]
  by_cases h : v.msb ∧ wrappedPort v = 0
  · rw [if_pos h, hrange.mpr h, if_neg Bool.false_ne_true]
  · rw [if_neg h, eq_true_of_ne_false (mt hrange.mp h), if_pos rfl]

/-- The sign check on the port bits is behind the range check (spec/60_exceptions.md R165). -/
theorem checkUnsigned_operandOf (v : OperandWord) :
    checkUnsigned (operandOf v) =
      if v.msb ∧ wrappedPort v = 0 then some .outOfRange else if v.msb then some .negativeOperand else none := by
  rw [checkUnsigned, checkSigned_operandOf, signOf_operandOf]
  by_cases h : v.msb ∧ wrappedPort v = 0
  · rw [if_pos h, if_pos h]
  · rw [if_neg h, if_neg h]

/-! ### The shifter and the complementer -/

theorem wrapped_of_nonneg {i : Int} (hpos : 0 ≤ i) (hi : i.natAbs < 2 ^ 256) : wrapped i = i.toNat := by
  change (i % ((2 ^ 256 : Nat) : Int)).toNat = _
  rw [Int.emod_eq_of_lt hpos (by omega)]

/-- On a non-negative in-range operand the low 256 bits of the port are the operand. -/
theorem wrappedPort_toNat {v : OperandWord} (hpos : 0 ≤ operandOf v) (hi : (operandOf v).natAbs < 2 ^ 256) :
    (wrappedPort v).toNat = (operandOf v).toNat := by
  rw [wrappedPort, ← wrapped_operandOf, wrapped_of_nonneg hpos hi]

/-- The 256-bit logical shifter. -/
theorem wrappedPort_shift_toNat {v : OperandWord} (hpos : 0 ≤ operandOf v) (hi : (operandOf v).natAbs < 2 ^ 256)
    (e : BitVec 8) : (wrappedPort v >>> e).toNat = shiftRightUnsigned (operandOf v).toNat e.toNat := by
  rw [BitVec.ushiftRight_eq', BitVec.toNat_ushiftRight, wrappedPort_toNat hpos hi, Nat.shiftRight_eq_div_pow,
    shiftRightUnsigned]

/-- The 257-bit complementer. -/
theorem operandOf_not (v : OperandWord) : operandOf (~~~v) = complement (operandOf v) := by
  have hpow : (2 : Nat) ^ 257 = 2 * 2 ^ 256 := Nat.pow_succ'
  have hlt := hpow ▸ v.isLt
  rw [complement, operandOf, operandOf, BitVec.toInt_eq_toNat_cond, BitVec.toInt_eq_toNat_cond, BitVec.toNat_not, hpow]
  split <;> split <;> omega

/-- The 257-bit arithmetic shifter. -/
theorem operandOf_sshiftRight (v : OperandWord) (n : Nat) :
    operandOf (v.sshiftRight n) = shiftRightSigned (operandOf v) n := by
  rw [operandOf, BitVec.toInt_sshiftRight, Int.shiftRight_eq_div_pow]
  rfl

/-- Shifted and complemented on 257 bits, a negative in-range operand is a 256-bit magnitude
(spec/42_variable_length_encoder.md R132, R134). -/
theorem complementedPort_toNat {v : OperandWord} (hneg : operandOf v < 0) (hi : (operandOf v).natAbs < 2 ^ 256)
    (n : Nat) : ((~~~(v.sshiftRight n)).extractLsb' 0 256).toNat =
      (complement (shiftRightSigned (operandOf v) n)).toNat := by
  have hlt := complement_shiftRightSigned_lt n hneg
  have hshift : shiftRightSigned (operandOf v) n < 0 := Int.ediv_neg_of_neg_of_pos hneg (by positivity)
  have hpos : 0 ≤ complement (shiftRightSigned (operandOf v) n) := by unfold complement; omega
  rw [← wrapped_operandOf, operandOf_not, operandOf_sshiftRight, wrapped_of_nonneg hpos (by omega)]

end Sys2Proof.Machine
end

section
/-!
PROOFS. The hardware form answers every request as the operations do: the wires of each strategy carry the record of its
path, and the byte lanes show its response (spec/43_meta_encoder.md R147; spec/44_value_serializer.md R157;
spec/60_exceptions.md R165).
-/
namespace Sys2Proof.Machine

/-! ### The byte lanes -/

/-- The wires carry what path `p` hands on for the count `e` and the magnitude `y`. -/
structure PortRecord (q : StrategyPort) (p : Path) (e y : Nat) : Prop where
  magnitude : q.y.toNat = y
  expand : q.expandBit = p.expanded
  complement : q.notBit = p.complemented
  count : q.count.toNat = e

theorem PortRecord.widthPort {q : StrategyPort} {p : Path} {e y : Nat} (h : PortRecord q p e y) :
    widthPort q = byteWidth y := by
  have hwidth := byteWidth_le_32 q.y.isLt
  have hpos := byteWidth_pos q.y.toNat
  rw [Machine.widthPort, msbPort_width, BitVec.toNat_ofNat, ← h.magnitude]
  omega

theorem PortRecord.metaWidthPort {q : StrategyPort} {p : Path} {e y : Nat} (h : PortRecord q p e y) :
    metaWidthPort q = p.metaBytes := by
  rw [Machine.metaWidthPort, h.expand, Path.metaBytes]

theorem PortRecord.flagBytePort {q : StrategyPort} {p : Path} {e y : Nat} (h : PortRecord q p e y) :
    flagBytePort q = p.flagByte y := by
  rw [Machine.flagBytePort, Path.flagByte, msbPort_width, h.expand, h.complement, h.magnitude]

/-- A byte lane of the magnitude is a byte of `BE`. -/
theorem extractLsb'_eq_beByte (v : Magnitude) (n k : Nat) :
    v.extractLsb' (8 * (n - 1 - k)) 8 = beByte v.toNat n k := by
  apply BitVec.eq_of_toNat_eq
  rw [BitVec.extractLsb'_toNat, Nat.shiftRight_eq_div_pow, beByte, BitVec.toNat_ofNat]

/-- Every lane shows the cell of the response the operation gives. -/
theorem PortRecord.lanePort {q : StrategyPort} {p : Path} {e y : Nat} {r : Response} (h : PortRecord q p e y)
    (hr : Carries r p e y) (k : Nat) : lanePort q k = r.outByte.get k := by
  rw [Machine.lanePort, h.metaWidthPort, h.widthPort, h.flagBytePort]
  split
  · next hmeta =>
    split
    · next hzero => rw [hzero, hr.flag_cell]
    · next hne =>
      have hexp : p.expanded = true := by
        by_contra hnot
        rw [Path.metaBytes, if_neg hnot] at hmeta
        omega
      have hone : k = 1 := by
        rw [Path.metaBytes, if_pos hexp] at hmeta
        omega
      rw [hone, hr.count_cell hexp, ← h.count, BitVec.ofNat_toNat, BitVec.setWidth_eq]
  · next hmeta =>
    obtain ⟨j, rfl⟩ := Nat.exists_eq_add_of_le (Nat.not_lt.mp hmeta)
    split
    · next hvalue =>
      rw [extractLsb'_eq_beByte, h.magnitude, Nat.add_sub_cancel_left, hr.value_cells j (by omega)]
    · next hpad => exact (hr.padding _ (by omega)).symm

theorem lanesResponse_outByte (q : StrategyPort) :
    (lanesResponse q).outByte = Memory.setAll [] 0 ((List.range Config.bufferCells).map (lanePort q)) := by
  rw [lanesResponse]

theorem lanes_length (q : StrategyPort) : 0 + ((List.range Config.bufferCells).map (lanePort q)).length ≤ 34 := by
  rw [List.length_map, List.length_range]
  decide

theorem lanesResponse_outByte_wf (q : StrategyPort) : (lanesResponse q).outByte.wf = true := by
  rw [lanesResponse_outByte]
  exact Memory.wf_setAll (lanes_length q) Memory.wf_nil

/-- Cell `a` of the hardware form is lane `a`, for the 34 cells there are. -/
theorem lanesResponse_get (q : StrategyPort) {a : Nat} (ha : a < 34) :
    (lanesResponse q).outByte.get a = lanePort q a := by
  have hlane : ((List.range Config.bufferCells).map (lanePort q))[a]? = some (lanePort q a) := by
    rw [List.getElem?_map, List.getElem?_range (show a < Config.bufferCells from ha), Option.map_some]
  rw [lanesResponse_outByte, Memory.get_setAll (lanes_length q) Memory.wf_nil, if_pos (Nat.zero_le a), Nat.sub_zero,
    hlane, Option.getD_some]

theorem Response.eq_of_ports {r r' : Response} (hvalid : r.outValid = r'.outValid) (hfault : r.outFault = r'.outFault)
    (hcause : r.outCause = r'.outCause) (hlen : r.outLen = r'.outLen) (hcells : r.outByte = r'.outByte) : r = r' := by
  cases r
  cases r'
  simp_all

/-- The lanes show the response of the path whose record the wires carry. -/
theorem PortRecord.lanesResponse_eq {q : StrategyPort} {p : Path} {e y : Nat} {r : Response}
    (h : PortRecord q p e y) (hr : Carries r p e y) : lanesResponse q = r := by
  have hlen : (lanesResponse q).outLen = r.outLen := by
    apply BitVec.eq_of_toNat_eq
    have hlt := r.outLen.isLt
    rw [hr.length] at hlt ⊢
    rw [lanesResponse, h.metaWidthPort, h.widthPort, BitVec.toNat_ofNat, Nat.mod_eq_of_lt hlt]
  have hcells : (lanesResponse q).outByte = r.outByte := by
    refine Memory.ext (lanesResponse_outByte_wf q) hr.canonical fun a => ?_
    rcases Nat.lt_or_ge a 34 with ha | ha
    · rw [lanesResponse_get q ha, h.lanePort hr a]
    · rw [Memory.get_of_le ha (lanesResponse_outByte_wf q), Memory.get_of_le ha hr.canonical]
  exact Response.eq_of_ports hr.valid.symm hr.no_fault.symm hr.no_cause.symm hlen hcells

theorem PortRecord.emit {q : StrategyPort} {p : Path} {e y : Nat} (h : PortRecord q p e y) :
    RespondsWith (emit (handOn p e y)) (lanesResponse q) := by
  obtain ⟨r, hcarries, hr⟩ := emit_handOn p (h.count ▸ q.count.isLt) (h.magnitude ▸ q.y.isLt)
  rwa [h.lanesResponse_eq hcarries]

/-! ### The strategies on the port -/

theorem plainPort_record {v : OperandWord} (hpos : 0 ≤ operandOf v) (hi : (operandOf v).natAbs < 2 ^ 256) {p : Path}
    (hexp : p.expanded = false) (hcompl : p.complemented = false) :
    PortRecord (plainPort v) p 0 (operandOf v).toNat :=
  ⟨wrappedPort_toNat hpos hi, hexp.symm, hcompl.symm, rfl⟩

theorem plainPort_emit {v : OperandWord} (hpos : 0 ≤ operandOf v) (hi : (operandOf v).natAbs < 2 ^ 256) :
    RespondsWith (emit (plainComponents (operandOf v))) (lanesResponse (plainPort v)) :=
  (plainPort_record hpos hi (p := .plain) rfl rfl).emit

theorem trimmedPort_emit {v : OperandWord} (hpos : 0 ≤ operandOf v) (hi : (operandOf v).natAbs < 2 ^ 256) :
    RespondsWith (emit (trimmedComponents (operandOf v))) (lanesResponse (trimmedPort v)) := by
  have hcount := lsbPort_toNat v
  have hthreshold : lsbPort v < 32 ↔ lsb (operandOf v) < 32 := by rw [BitVec.lt_def, hcount]; rfl
  simp only [trimmedPort]
  split
  · next h =>
    rw [trimmedComponents_fallback (hthreshold.mp h)]
    exact (plainPort_record hpos hi rfl rfl).emit
  · next h =>
    rw [trimmedComponents_expanded (Nat.not_lt.mp (mt hthreshold.mpr h))]
    exact PortRecord.emit ⟨hcount ▸ wrappedPort_shift_toNat hpos hi _, rfl, rfl, hcount⟩

/-- The clamp on the port (spec/42_variable_length_encoder.md R131). -/
theorem clampedPort_toNat (v : OperandWord) :
    (if 32 < lsbPort v then 0 else lsbPort v).toNat = clampedExpansion (operandOf v) := by
  have hcount := lsbPort_toNat v
  have hthreshold : 32 < lsbPort v ↔ 32 < lsb (operandOf v) := by rw [BitVec.lt_def, hcount]; rfl
  split
  · next h => exact (clampedExpansion_of_lt (hthreshold.mp h)).symm
  · next h => rw [clampedExpansion_of_le (Nat.not_lt.mp (mt hthreshold.mpr h)), hcount]

theorem signedPort_emit {v : OperandWord} (hi : (operandOf v).natAbs < 2 ^ 256) :
    RespondsWith (emit (signedComponents (operandOf v))) (lanesResponse (signedPort v)) := by
  have hcount := clampedPort_toNat v
  have hsign : v.msb = true ↔ operandOf v < 0 := by rw [← signOf_operandOf, signOf_iff]
  simp only [signedPort]
  split
  · next h =>
    have hneg := hsign.mp h
    rw [signedComponents_neg hneg]
    exact PortRecord.emit ⟨hcount ▸ complementedPort_toNat hneg hi _, rfl, rfl, hcount⟩
  · next h =>
    have hpos := not_lt.mp (mt hsign.mpr h)
    rw [signedComponents_nonneg hpos]
    exact PortRecord.emit ⟨hcount ▸ wrappedPort_shift_toNat hpos hi _, rfl, rfl, hcount⟩

/-! ### The whole block on the port -/

/-- An operation that ends in the fault response of its checks, and emits `r` where they pass. -/
theorem respondsWith_of_checked {check : Option Cause} {c : EncodeComponents}
    {f : State → Host.Outcome State Fault Refusal} {r : Response}
    (hf : ∀ s t, f s = .next t ↔ (∃ k, check = some k ∧ t = s.respond (faultResponse k)) ∨
      (check = none ∧ emit c s = .next t))
    (hr : check = none → RespondsWith (emit c) r) : RespondsWith f (check.elim r faultResponse) := by
  intro s
  cases check with
  | some k => exact (hf s _).mpr (.inl ⟨k, rfl, rfl⟩)
  | none => exact (hf s _).mpr (.inr ⟨rfl, hr rfl s⟩)

theorem portResponse_reserved (v : OperandWord) : portResponse ⟨0, v⟩ = faultResponse .illegalStrategy := if_pos rfl

theorem portResponse_enc1 (v : OperandWord) :
    portResponse ⟨1, v⟩ = (checkUnsigned (operandOf v)).elim (lanesResponse (plainPort v)) faultResponse := by
  rw [checkUnsigned_operandOf]
  simp only [portResponse]
  split_ifs <;> simp_all

theorem portResponse_enc2 (v : OperandWord) :
    portResponse ⟨2, v⟩ = (checkUnsigned (operandOf v)).elim (lanesResponse (trimmedPort v)) faultResponse := by
  rw [checkUnsigned_operandOf]
  simp only [portResponse]
  split_ifs <;> simp_all

theorem portResponse_enc3 (v : OperandWord) :
    portResponse ⟨3, v⟩ = (checkSigned (operandOf v)).elim (lanesResponse (signedPort v)) faultResponse := by
  rw [checkSigned_operandOf]
  simp only [portResponse]
  split_ifs <;> simp_all

/-- The request of an operation's select is decoded as that operation on the operand of the port. -/
theorem decode_word {r : Request} {i : Instr} (hsel : r.sel = i.select) (hoperand : i.operand = operandOf r.value) :
    decode r.word = .ok i := by
  rw [decode_eq_ok, Request.word, Laws.selectField_requestWord, Laws.operandField_requestWord]
  exact ⟨hsel, hoperand⟩

theorem serve_eq_exec {r : Request} {i : Instr} (hsel : r.sel = i.select) (hoperand : i.operand = operandOf r.value) :
    serve r = exec i :=
  funext (serve_of_decode_ok (decode_word hsel hoperand))

theorem serve_portResponse (r : Request) : RespondsWith (serve r) (portResponse r) := by
  obtain ⟨sel, v⟩ := r
  rcases select_cases sel with rfl | rfl | rfl | rfl
  · rw [portResponse_reserved]
    exact serve_of_decode_error (decode_eq_error.mpr (Laws.selectField_requestWord 0 v))
  · rw [portResponse_enc1, serve_eq_exec (i := .enc1 (operandOf v)) rfl rfl]
    refine respondsWith_of_checked (fun _ _ => execEnc1_eq_next) fun hcheck => ?_
    obtain ⟨hpos, hi⟩ := checkUnsigned_eq_none.mp hcheck
    exact plainPort_emit hpos hi
  · rw [portResponse_enc2, serve_eq_exec (i := .enc2 (operandOf v)) rfl rfl]
    refine respondsWith_of_checked (fun _ _ => execEnc2_eq_next) fun hcheck => ?_
    obtain ⟨hpos, hi⟩ := checkUnsigned_eq_none.mp hcheck
    exact trimmedPort_emit hpos hi
  · rw [portResponse_enc3, serve_eq_exec (i := .enc3 (operandOf v)) rfl rfl]
    exact respondsWith_of_checked (fun _ _ => execEnc3_eq_next) fun hcheck =>
      signedPort_emit (checkSigned_eq_none.mp hcheck)

/-- Settles O40: serving a request drives what the hardware form computes, and nothing else changes. -/
theorem hardwareFormRefinesOperations : Obligations.HardwareFormRefinesOperations := serve_portResponse

end Sys2Proof.Machine
end

section
/-!
PROOFS. The finder of the highest set bit and the byte width: the characterisation of `msb`, the loop of repeated
halving, and the minimality of the width (spec/40_msb_finder.md R101, R102, R106; spec/42_variable_length_encoder.md
R122).
-/
namespace Sys2Proof.Machine

/-! ### The highest set bit -/

theorem msb_zero : msb 0 = 0 := rfl

theorem two_pow_msb_le {v : Nat} (h : v ≠ 0) : 2 ^ msb v ≤ v :=
  msb_eq_log2 v ▸ Nat.log2_self_le h

/-- The two powers of two around a value determine its `msb`. -/
theorem msb_eq_iff {v k : Nat} (h : v ≠ 0) : msb v = k ↔ 2 ^ k ≤ v ∧ v < 2 ^ (k + 1) := by
  rw [msb_eq_log2, Nat.log2_eq_iff h]

theorem msb_mono {v w : Nat} (h : v ≤ w) : msb v ≤ msb w := by
  rw [msb_eq_log2, msb_eq_log2, Nat.log2_eq_log_two, Nat.log2_eq_log_two]
  exact Nat.log_mono_right h

/-- Settles O29: the characterisation of the highest set bit, its bound and its monotonicity. -/
theorem msbIsHighestSetBit : Obligations.MsbIsHighestSetBit := by
  refine ⟨fun v k hpos _ => ?_, fun v hv => ⟨lt_two_pow_msb_succ v, ?_⟩, msb_zero, fun v w hle _ => msb_mono hle⟩
  · rw [eq_comm, msb_eq_iff hpos.ne']
  · exact Nat.le_of_lt_succ (msb_lt_256 hv)

/-! ### The loop of repeated halving -/

/-- Halving a value above 1 moves its highest set bit down by one. -/
theorem msb_eq_msb_half_succ {v : Nat} (h : 1 < v) : msb v = msb (v / 2) + 1 := by
  have hhalf : v / 2 ≠ 0 := by omega
  have hlow := two_pow_msb_le hhalf
  have hhigh := lt_two_pow_msb_succ (v / 2)
  rw [msb_eq_iff (by omega), Nat.pow_succ, Nat.pow_succ]
  omega

theorem msb_eq_zero_of_le_one {v : Nat} (h : v ≤ 1) : msb v = 0 :=
  Nat.le_zero.mp (msb_mono h)

/-- With one round for each bit above the lowest, the loop adds the `msb` of its value to its counter. -/
theorem msbLoop_eq (fuel : Nat) {v : Nat} (r : Nat) (h : v < 2 ^ (fuel + 1)) : msbLoop fuel v r = r + msb v := by
  induction fuel generalizing v r with
  | zero => rw [msbLoop, msb_eq_zero_of_le_one (Nat.le_of_lt_succ h), Nat.add_zero]
  | succ fuel ih =>
    rw [msbLoop]
    split
    · next hv =>
      have hhalf : v / 2 < 2 ^ (fuel + 1) := Nat.div_lt_of_lt_mul (h.trans_eq (Nat.pow_succ' ..))
      rw [ih _ hhalf, msb_eq_msb_half_succ hv]
      omega
    · next hv => rw [msb_eq_zero_of_le_one (Nat.le_of_not_lt hv), Nat.add_zero]

/-- Settles O30: 255 rounds are one for each of the 256 bits but the lowest. -/
theorem halvingLoopComputesMsb : Obligations.HalvingLoopComputesMsb := fun v hv => by
  rw [msbByHalving, msbLoop_eq 255 0 hv, Nat.zero_add]

/-! ### The minimal byte width -/

theorem pow_256_eq (n : Nat) : 256 ^ n = 2 ^ (8 * n) := (Nat.pow_mul 2 8 n).symm

/-- One byte less than the width reaches at most up to the highest set bit. -/
theorem pow_256_byteWidth_pred_le {y : Nat} (h : y ≠ 0) : 256 ^ (byteWidth y - 1) ≤ y := by
  have hbits : 8 * (byteWidth y - 1) ≤ msb y := Nat.mul_div_le ..
  rw [pow_256_eq]
  exact (Nat.pow_le_pow_right two_pos hbits).trans (two_pow_msb_le h)

theorem byteWidth_minimalWidth {y : Nat} (h : y < 2 ^ 256) : MinimalWidth (byteWidth y) y where
  pos := byteWidth_pos y
  le_32 := byteWidth_le_32 h
  fits := pow_256_eq _ ▸ lt_two_pow_byteWidth y
  minimal := by
    by_cases h0 : y = 0
    · exact .inr (h0 ▸ rfl)
    · exact .inl (pow_256_byteWidth_pred_le h0)

theorem byteWidth_le_of_msb_le {y z : Nat} (h : msb y ≤ msb z) : byteWidth y ≤ byteWidth z :=
  Nat.succ_le_succ (Nat.div_le_div_right h)

/-- The field `msb_out[7:3]` is the width less one, with no adder (spec/40_msb_finder.md R106). -/
theorem byteWidth_eq_msb_field_succ {y : Nat} (h : y < 2 ^ 256) :
    byteWidth y = ((BitVec.ofNat 8 (msb y)).extractLsb' 3 5).toNat + 1 := by
  have hmsb := msb_lt_256 h
  rw [byteWidth, BitVec.extractLsb'_toNat, BitVec.toNat_ofNat, Nat.shiftRight_eq_div_pow]
  omega

/-- Settles O33: the width is the least that holds the highest set bit, and it is read off the finder's output. -/
theorem byteWidthIsMinimal : Obligations.ByteWidthIsMinimal :=
  ⟨fun _ hy => ⟨byteWidth_minimalWidth hy, rfl, byteWidth_eq_msb_field_succ hy⟩, rfl,
    fun _ _ hle _ => byteWidth_le_of_msb_le (msb_mono hle), fun _ _ _ _ => byteWidth_le_of_msb_le⟩

end Sys2Proof.Machine
end

section
/-!
PROOFS. The isolated bit and the count of trailing zeros, on the operand written as an odd multiple of a power of two;
and the wrapped view of a negative operand (spec/41_lsb_finder.md R111 to R113, spec/00_scope.md R12).
-/
namespace Sys2Proof.Machine

/-- An odd multiple of `2^k` has `k` factors of two and no more. -/
theorem not_two_pow_succ_dvd_two_pow_mul_odd {k n : Nat} (hn : Odd n) : ¬ 2 ^ (k + 1) ∣ 2 ^ k * n := by
  rw [pow_succ, Nat.mul_dvd_mul_iff_left (Nat.two_pow_pos k)]
  exact hn.not_two_dvd_nat

/-- Settles O31: the largest power of two dividing `u` is the one that isolation leaves. -/
theorem isolatedBitIsLowestSetBit : Obligations.IsolatedBitIsLowestSetBit := by
  refine ⟨fun u hpos hlt => ?_, Nat.zero_and _⟩
  obtain ⟨k, n, hodd, rfl⟩ := Nat.exists_eq_two_pow_mul_odd hpos.ne'
  refine ⟨k, ?_, Nat.dvd_mul_right .., not_two_pow_succ_dvd_two_pow_mul_odd hodd⟩
  obtain ⟨q, rfl⟩ := hodd
  exact isolate_two_pow_mul_odd hlt

/-- A negative operand wraps to its distance below `2^256` (spec/00_scope.md R12). -/
theorem wrapped_of_neg {i : Int} (hneg : i < 0) (hi : i.natAbs < 2 ^ 256) : wrapped i = 2 ^ 256 - i.natAbs := by
  change (i % ((2 ^ 256 : Nat) : Int)).toNat = _
  omega

/-- The magnitude has exactly `lsb i` factors of two, for either sign. -/
theorem two_pow_lsb_exactly_divides_natAbs {i : Int} (h0 : i ≠ 0) (hi : i.natAbs < 2 ^ 256) :
    2 ^ lsb i ∣ i.natAbs ∧ ¬ 2 ^ (lsb i + 1) ∣ i.natAbs := by
  obtain ⟨k, m, hk, hm, rfl⟩ := exists_two_pow_mul_odd h0 hi
  have habs : (2 ^ k * m).natAbs = 2 ^ k * m.natAbs := by rw [Int.natAbs_mul, Int.natAbs_pow]; rfl
  have hodd : Odd m.natAbs := Int.natAbs_odd.mpr (Int.odd_iff.mpr hm)
  rw [lsb_two_pow_mul_odd hk hm, habs]
  exact ⟨Nat.dvd_mul_right .., not_two_pow_succ_dvd_two_pow_mul_odd hodd⟩

/-- Settles O32: the wrapped view keeps the trailing zeros of the magnitude, and a negative one never wraps to 0. -/
theorem lsbCountsTrailingZeros : Obligations.LsbCountsTrailingZeros := by
  refine ⟨fun i h0 hi => ?_, lsb_zero, fun i hneg hi => ?_⟩
  · obtain ⟨hdvd, hnot⟩ := two_pow_lsb_exactly_divides_natAbs h0 hi
    exact ⟨hdvd, hnot, Nat.le_of_lt_succ (lsb_lt_256 i)⟩
  · have hwrap := wrapped_of_neg hneg hi
    exact ⟨hwrap, hwrap ▸ Nat.sub_pos_of_lt hi⟩

end Sys2Proof.Machine
end

section
/-!
PROOFS. The complement and the arithmetic shift of a negative operand (spec/42_variable_length_encoder.md R132).
-/
namespace Sys2Proof.Machine

/-- Floor division of a negative integer is, complemented, division of the magnitude less one. -/
theorem complement_shiftRightSigned {i : Int} (hneg : i < 0) (e : Nat) :
    complement (shiftRightSigned i e) = (((i.natAbs - 1) / 2 ^ e : Nat) : Int) := by
  obtain ⟨n, rfl⟩ := Int.eq_negSucc_of_lt_zero hneg
  rw [shiftRightSigned, Int.negSucc_ediv _ (by positivity), complement, Int.natAbs_negSucc, Nat.succ_sub_one,
    Int.natCast_ediv]
  change -(-((n : Int) / (2 ^ e : Nat) + 1)) - 1 = _
  omega

theorem complement_toNat {i : Int} (hneg : i < 0) : (complement i).toNat = i.natAbs - 1 := by
  unfold complement
  omega

/-- Settles O39: both forms are the floor division of one magnitude. -/
theorem complementThenShift : Obligations.ComplementThenShift := fun _ e hneg =>
  ⟨complement_toNat hneg ▸ complement_shiftRightSigned hneg e, complement_shiftRightSigned hneg e⟩

end Sys2Proof.Machine
end

section
/-!
PROOFS. The rules of the three operations: the fault response where a check fails, and otherwise the response of the
path the operand takes (spec/42_variable_length_encoder.md R120, R124, R126, R130; spec/60_exceptions.md R165).
-/
namespace Sys2Proof.Machine

/-! ### The checks -/

theorem checkSigned_of_outOfRange {i : Int} (hi : 2 ^ 256 ≤ i.natAbs) : checkSigned i = some .outOfRange :=
  checkSigned_eq_some.mpr ⟨hi, rfl⟩

theorem checkUnsigned_of_outOfRange {i : Int} (hi : 2 ^ 256 ≤ i.natAbs) : checkUnsigned i = some .outOfRange :=
  checkUnsigned_eq_some.mpr (.inl ⟨hi, rfl⟩)

theorem checkUnsigned_of_neg {i : Int} (hneg : i < 0) (hi : i.natAbs < 2 ^ 256) :
    checkUnsigned i = some .negativeOperand :=
  checkUnsigned_eq_some.mpr (.inr ⟨hi, hneg, rfl⟩)

theorem checkUnsigned_natCast {i : Nat} (hi : i < 2 ^ 256) : checkUnsigned (i : Int) = none :=
  checkUnsigned_eq_none.mpr ⟨Int.natCast_nonneg i, hi⟩

/-! ### Faults -/

theorem exec_enc1_fault {i : Int} {c : Cause} (h : checkUnsigned i = some c) :
    RespondsWith (exec (.enc1 i)) (faultResponse c) :=
  fun _ => execEnc1_eq_next.mpr (.inl ⟨c, h, rfl⟩)

theorem exec_enc2_fault {i : Int} {c : Cause} (h : checkUnsigned i = some c) :
    RespondsWith (exec (.enc2 i)) (faultResponse c) :=
  fun _ => execEnc2_eq_next.mpr (.inl ⟨c, h, rfl⟩)

theorem exec_enc3_fault {i : Int} {c : Cause} (h : checkSigned i = some c) :
    RespondsWith (exec (.enc3 i)) (faultResponse c) :=
  fun _ => execEnc3_eq_next.mpr (.inl ⟨c, h, rfl⟩)

/-! ### Paths -/

/-- From every state `f` answers with the normal response of path `p` for the count `e` and the magnitude `y`. -/
def Answers (f : State → Host.Outcome State Fault Refusal) (p : Path) (e y : Nat) : Prop :=
  ∃ r, Carries r p e y ∧ RespondsWith f r

/-- An operation whose checks pass, and whose record is that of a path, answers on that path. -/
theorem answers_of_checked {check : Option Cause} {c : EncodeComponents}
    {f : State → Host.Outcome State Fault Refusal} {p : Path} {e y : Nat}
    (hf : ∀ s t, f s = .next t ↔ (∃ k, check = some k ∧ t = s.respond (faultResponse k)) ∨
      (check = none ∧ emit c s = .next t))
    (hpass : check = none) (hc : c = handOn p e y) (he : e < 256) (hy : y < 2 ^ 256) : Answers f p e y := by
  obtain ⟨r, hcarries, hr⟩ := emit_handOn p he hy
  exact ⟨r, hcarries, fun s => (hf s _).mpr (.inr ⟨hpass, hc ▸ hr s⟩)⟩

theorem exec_enc1_answers {i : Nat} (hi : i < 2 ^ 256) : Answers (exec (.enc1 i)) .plain 0 i :=
  answers_of_checked (fun _ _ => execEnc1_eq_next) (checkUnsigned_natCast hi) rfl (by decide) hi

theorem exec_enc2_answers_fallback {i : Nat} (hi : i < 2 ^ 256) (hlsb : lsb i < 32) :
    Answers (exec (.enc2 i)) .fallback 0 i :=
  answers_of_checked (fun _ _ => execEnc2_eq_next) (checkUnsigned_natCast hi) (trimmedComponents_fallback hlsb)
    (by decide) hi

theorem exec_enc2_answers_trimmed {i : Nat} (hi : i < 2 ^ 256) (hlsb : 32 ≤ lsb i) :
    Answers (exec (.enc2 i)) .trimmed (lsb i) (shiftRightUnsigned i (lsb i)) :=
  answers_of_checked (fun _ _ => execEnc2_eq_next) (checkUnsigned_natCast hi) (trimmedComponents_expanded hlsb)
    (lsb_lt_256 i) ((shiftRightUnsigned_le ..).trans_lt hi)

theorem exec_enc3_answers_nonneg {i : Nat} (hi : i < 2 ^ 256) :
    Answers (exec (.enc3 i)) .signedNonNegative (clampedExpansion i) (shiftRightUnsigned i (clampedExpansion i)) :=
  answers_of_checked (fun _ _ => execEnc3_eq_next) (checkSigned_eq_none.mpr hi)
    (signedComponents_nonneg (Int.natCast_nonneg i)) (clampedExpansion_lt_256 i)
    ((shiftRightUnsigned_le ..).trans_lt hi)

theorem exec_enc3_answers_neg {i : Int} (hneg : i < 0) (hi : i.natAbs < 2 ^ 256) :
    Answers (exec (.enc3 i)) .signedNegative (clampedExpansion i)
      (complement (shiftRightSigned i (clampedExpansion i))).toNat :=
  answers_of_checked (fun _ _ => execEnc3_eq_next) (checkSigned_eq_none.mpr hi) (signedComponents_neg hneg)
    (clampedExpansion_lt_256 i) ((complement_shiftRightSigned_lt _ hneg).trans hi)

end Sys2Proof.Machine
end

section
/-!
PROOFS. The output sequence of a path, and the inverse mapping on it: the operand comes back from the output alone
(spec/42_variable_length_encoder.md R136; spec/30_encoding.md R70; spec/95_test_vectors.md section 5).
-/
namespace Sys2Proof.Machine

/-! ### The output sequence -/

/-- The meta bytes of a path: the flag byte and, on the expanded paths, the count
(spec/43_meta_encoder.md R141, R147). -/
def Path.metaSequence (p : Path) (e y : Nat) : List Byte :=
  p.flagByte y :: if p.expanded then [BitVec.ofNat 8 e] else []

/-- `BE(y, n)` as a list (spec/44_value_serializer.md R150); `be_of_domain` ties it to `be`. -/
def valueSequence (y n : Nat) : List Byte := (List.range n).map (beByte y n)

theorem Path.metaSequence_length (p : Path) (e y : Nat) : (p.metaSequence e y).length = p.metaBytes := by
  unfold Path.metaSequence Path.metaBytes
  split <;> rfl

theorem valueSequence_length (y n : Nat) : (valueSequence y n).length = n := by
  rw [valueSequence, List.length_map, List.length_range]

/-- The meta cells hold the meta bytes. -/
theorem Carries.meta_cells {r : Response} {p : Path} {e y : Nat} (h : Carries r p e y) {k : Nat}
    (hk : k < p.metaBytes) : (p.metaSequence e y)[k]? = some (r.outByte.get k) := by
  rw [Path.metaBytes] at hk
  cases k with
  | zero => rw [h.flag_cell]; rfl
  | succ k =>
    have hexp : p.expanded = true := by
      by_contra hnot
      rw [if_neg hnot] at hk
      omega
    rw [if_pos hexp] at hk
    obtain rfl : k = 0 := by omega
    rw [h.count_cell hexp, Path.metaSequence, if_pos hexp]
    rfl

/-- The output sequence is the meta bytes followed by the value bytes (spec/44_value_serializer.md R153). -/
theorem Carries.bytes_eq {r : Response} {p : Path} {e y : Nat} (h : Carries r p e y) :
    r.bytes = p.metaSequence e y ++ valueSequence y (byteWidth y) := by
  apply List.ext_getElem?
  intro k
  rw [Response.bytes, h.length, List.getElem?_map]
  rcases Nat.lt_or_ge k p.metaBytes with hmeta | hmeta
  · rw [List.getElem?_append_left (by rwa [p.metaSequence_length]), h.meta_cells hmeta,
      List.getElem?_range (by omega), Option.map_some]
  · obtain ⟨j, rfl⟩ := Nat.exists_eq_add_of_le hmeta
    rw [List.getElem?_append_right (by rwa [p.metaSequence_length]), p.metaSequence_length, Nat.add_sub_cancel_left,
      valueSequence, List.getElem?_map]
    rcases Nat.lt_or_ge j (byteWidth y) with hvalue | hvalue
    · rw [List.getElem?_range (by omega), List.getElem?_range hvalue, Option.map_some, Option.map_some,
        h.value_cells j hvalue]
    · rw [List.getElem?_eq_none (by simpa using hvalue), List.getElem?_eq_none (by simpa using hvalue)]
      rfl

/-! ### The value of a byte sequence -/

/-- One byte more is one digit more in front. -/
theorem valueSequence_succ (y n : Nat) :
    valueSequence y (n + 1) = BitVec.ofNat 8 (y / 256 ^ n) :: valueSequence y n := by
  rw [valueSequence, List.range_succ_eq_map, List.map_cons, List.map_map, pow_256_eq]
  refine congrArg _ (List.map_congr_left fun k _ => ?_)
  simp only [Function.comp_apply, beByte]
  congr 4
  omega

theorem bigEndianValue_valueSequence (y n : Nat) : bigEndianValue (valueSequence y n) = y % 256 ^ n := by
  induction n with
  | zero => rw [pow_zero, Nat.mod_one]; rfl
  | succ n ih =>
    rw [valueSequence_succ, bigEndianValue, ih, valueSequence_length, BitVec.toNat_ofNat, Nat.mod_pow_succ (b := 256),
      Nat.add_comm, Nat.mul_comm]

theorem bigEndianValue_valueSequence_byteWidth (y : Nat) : bigEndianValue (valueSequence y (byteWidth y)) = y := by
  rw [bigEndianValue_valueSequence, pow_256_eq, Nat.mod_eq_of_lt (lt_two_pow_byteWidth y)]

/-! ### The inverse mapping on a path -/

/-- The operand the flags of a path, its count and its stored magnitude stand for. -/
def Path.operand (p : Path) (e y : Nat) : Int :=
  if p.expanded then (if p.complemented then complement y else y) * (2 ^ e : Nat) else y

theorem inverse_of_not_expanded {f : Byte} {value : List Byte} (hexp : f.getLsbD 5 = false)
    (hlen : value.length = f.toNat % 32 + 1) : inverse (f :: value) = some (bigEndianValue value : Int) := by
  simp only [inverse, hexp, if_neg Bool.false_ne_true, if_pos hlen]

theorem inverse_of_expanded {f e : Byte} {value : List Byte} (hexp : f.getLsbD 5 = true)
    (hlen : value.length = f.toNat % 32 + 1) : inverse (f :: e :: value) =
      some ((if f.getLsbD 6 then complement (bigEndianValue value) else bigEndianValue value) *
        (2 ^ e.toNat : Nat)) := by
  rw [inverse, hexp, if_pos rfl]
  exact if_pos hlen

/-- The inverse mapping reads the path off the flag byte, and the width with it. -/
theorem inverse_metaSequence_append (p : Path) {e y : Nat} (he : e < 256) (hy : y < 2 ^ 256) {value : List Byte}
    (hlen : value.length = byteWidth y) :
    inverse (p.metaSequence e y ++ value) = some (p.operand e (bigEndianValue value)) := by
  have hwidth : value.length = (p.flagByte y).toNat % 32 + 1 := by
    rw [p.flagByte_width hy, hlen, Nat.sub_add_cancel (byteWidth_pos y)]
  have hbit5 := p.flagByte_bit5 y
  rw [Path.metaSequence, Path.operand]
  cases hexp : p.expanded with
  | false => exact inverse_of_not_expanded (hbit5.trans hexp) hwidth
  | true =>
    refine (inverse_of_expanded (hbit5.trans hexp) hwidth).trans ?_
    rw [p.flagByte_bit6, BitVec.toNat_ofNat, Nat.mod_eq_of_lt he]
    rfl

theorem Carries.inverse_bytes {r : Response} {p : Path} {e y : Nat} (h : Carries r p e y) (he : e < 256)
    (hy : y < 2 ^ 256) : inverse r.bytes = some (p.operand e y) := by
  rw [h.bytes_eq, inverse_metaSequence_append p he hy (valueSequence_length ..),
    bigEndianValue_valueSequence_byteWidth]

/-! ### The operand of each path -/

/-- The count of trailing zeros divides out of the operand, 0 included. -/
theorem two_pow_lsb_dvd {i : Int} (hi : i.natAbs < 2 ^ 256) : ((2 ^ lsb i : Nat) : Int) ∣ i := by
  by_cases h0 : i = 0
  · exact h0 ▸ Int.dvd_zero _
  · exact Int.natCast_dvd.mpr (two_pow_lsb_exactly_divides_natAbs h0 hi).1

theorem two_pow_clampedExpansion_dvd {i : Int} (hi : i.natAbs < 2 ^ 256) :
    ((2 ^ clampedExpansion i : Nat) : Int) ∣ i := by
  rcases Nat.lt_or_ge 32 (lsb i) with hlt | hle
  · rw [clampedExpansion_of_lt hlt]
    exact Int.one_dvd i
  · rw [clampedExpansion_of_le hle]
    exact two_pow_lsb_dvd hi

/-- Shifting out zeros loses nothing. -/
theorem shiftRightSigned_mul_two_pow {i : Int} {e : Nat} (h : ((2 ^ e : Nat) : Int) ∣ i) :
    shiftRightSigned i e * (2 ^ e : Nat) = i :=
  Int.ediv_mul_cancel h

theorem natCast_shiftRightUnsigned_mul_two_pow {i e : Nat} (h : ((2 ^ e : Nat) : Int) ∣ (i : Int)) :
    (shiftRightUnsigned i e : Int) * (2 ^ e : Nat) = i := by
  rw [← Int.toNat_natCast i, natCast_shiftRightUnsigned (Int.natCast_nonneg i)]
  exact shiftRightSigned_mul_two_pow h

theorem complement_complement (a : Int) : complement (complement a) = a := by
  unfold complement
  omega

/-- On the negative path the complement is a magnitude (spec/42_variable_length_encoder.md R134). -/
theorem natCast_complement_shiftRightSigned {i : Int} (hneg : i < 0) (e : Nat) :
    ((complement (shiftRightSigned i e)).toNat : Int) = complement (shiftRightSigned i e) := by
  rw [complement_shiftRightSigned hneg, Int.toNat_natCast]

/-- An answer whose path, count and magnitude stand for `i` is inverted to `i`. -/
theorem Answers.recovers {f : State → Host.Outcome State Fault Refusal} {p : Path} {e y : Nat} {i : Int}
    (h : Answers f p e y) (he : e < 256) (hy : y < 2 ^ 256) (hoperand : p.operand e y = i) (s : State) :
    ∃ t, f s = .next t ∧ inverse t.out.bytes = some i := by
  obtain ⟨r, hcarries, hr⟩ := h
  exact ⟨s.respond r, hr s, hoperand ▸ hcarries.inverse_bytes he hy⟩

theorem exec_enc1_recovers {i : Nat} (hi : i < 2 ^ 256) (s : State) :
    ∃ t, exec (.enc1 i) s = .next t ∧ inverse t.out.bytes = some (i : Int) :=
  (exec_enc1_answers hi).recovers (by decide) hi rfl s

theorem exec_enc2_recovers {i : Nat} (hi : i < 2 ^ 256) (s : State) :
    ∃ t, exec (.enc2 i) s = .next t ∧ inverse t.out.bytes = some (i : Int) := by
  rcases Nat.lt_or_ge (lsb i) 32 with hlt | hge
  · exact (exec_enc2_answers_fallback hi hlt).recovers (by decide) hi rfl s
  · exact (exec_enc2_answers_trimmed hi hge).recovers (lsb_lt_256 i) ((shiftRightUnsigned_le ..).trans_lt hi)
      (natCast_shiftRightUnsigned_mul_two_pow (two_pow_lsb_dvd hi)) s

theorem exec_enc3_recovers {i : Int} (hi : i.natAbs < 2 ^ 256) (s : State) :
    ∃ t, exec (.enc3 i) s = .next t ∧ inverse t.out.bytes = some i := by
  have hdvd := two_pow_clampedExpansion_dvd hi
  rcases lt_or_ge i 0 with hneg | hpos
  · refine (exec_enc3_answers_neg hneg hi).recovers (clampedExpansion_lt_256 i)
      ((complement_shiftRightSigned_lt _ hneg).trans hi) ?_ s
    calc complement ((complement (shiftRightSigned i (clampedExpansion i))).toNat : Int) *
          (2 ^ clampedExpansion i : Nat)
        = shiftRightSigned i (clampedExpansion i) * (2 ^ clampedExpansion i : Nat) := by
          rw [natCast_complement_shiftRightSigned hneg, complement_complement]
      _ = i := shiftRightSigned_mul_two_pow hdvd
  · obtain ⟨n, rfl⟩ := Int.eq_ofNat_of_zero_le hpos
    exact (exec_enc3_answers_nonneg hi).recovers (clampedExpansion_lt_256 n) ((shiftRightUnsigned_le ..).trans_lt hi)
      (natCast_shiftRightUnsigned_mul_two_pow hdvd) s

/-- Settles O18: the flag byte tells the path, and what each path stores stands for the operand. -/
theorem operandIsRecoverable : Obligations.OperandIsRecoverable :=
  ⟨fun _ s hi => ⟨exec_enc1_recovers hi s, exec_enc2_recovers hi s⟩, fun _ s hi => exec_enc3_recovers hi s⟩

end Sys2Proof.Machine
end

section
/-!
PROOFS. What a caller sees of each path: the delivered bytes, the frame and the faults of the three operations
(spec/42_variable_length_encoder.md R124, R126, R129 to R131).
-/
namespace Sys2Proof.Machine

/-! ### What is delivered -/

/-- The width and the flags share no bit, so the disjunction of the meta encoder is a sum
(spec/43_meta_encoder.md R145). -/
theorem Path.flagByte_eq_add (p : Path) {y : Nat} (hy : y < 2 ^ 256) :
    p.flagByte y = BitVec.ofNat 8 (p.flags + (byteWidth y - 1)) := by
  have hdisjoint : ∀ x < 32, x ||| p.flags = p.flags + x := by cases p <;> decide
  have hwidth := byteWidth_le_32 hy
  rw [p.flagByte_eq hy, hdisjoint _ (by omega)]

theorem Carries.delivers {r : Response} {p : Path} {e y : Nat} (h : Carries r p e y) (hy : y < 2 ^ 256) :
    Delivers r (p.metaSequence e y) (byteWidth y) y := by
  have hwidth := byteWidth_le_32 hy
  have hmeta : p.metaBytes ≤ 2 := by unfold Path.metaBytes; split <;> decide
  have hlen := p.metaSequence_length e y
  exact {
    valid := h.valid
    no_fault := h.no_fault
    no_cause := h.no_cause
    length := hlen ▸ h.length
    meta_cells := fun k hk => by
      rw [hlen] at hk
      rw [h.meta_cells hk, Memory.read_of_lt _ (by omega)]
    value_cells := fun k hk => by
      rw [hlen, Memory.read_of_lt _ (by omega), h.value_cells k hk, beByte, pow_256_eq]
    padding := fun a hlow hhigh => by
      rw [Memory.read_of_lt _ hhigh, h.padding a (hlen ▸ hlow)]
    no_cell := fun a ha => Memory.read_of_le _ ha }

theorem Answers.delivers {f : State → Host.Outcome State Fault Refusal} {p : Path} {e y : Nat} (h : Answers f p e y)
    (hy : y < 2 ^ 256) (s : State) :
    ∃ t, f s = .next t ∧ Delivers t.out (p.metaSequence e y) (byteWidth y) y ∧
      t.inputs = s.inputs ∧ t.inFlight = s.inFlight := by
  obtain ⟨r, hcarries, hr⟩ := h
  exact ⟨s.respond r, hr s, hcarries.delivers hy, rfl, rfl⟩

/-- A path in format M1 delivers the width less one, then the value. -/
theorem Answers.delivers_short {f : State → Host.Outcome State Fault Refusal} {p : Path} {e y : Nat}
    (h : Answers f p e y) (hexp : p.expanded = false) (hy : y < 2 ^ 256) (s : State) :
    ∃ t w, f s = .next t ∧ MinimalWidth w y ∧ Delivers t.out [BitVec.ofNat 8 (w - 1)] w y ∧
      t.inputs = s.inputs ∧ t.inFlight = s.inFlight := by
  obtain ⟨t, ht, hdelivers, hframe⟩ := h.delivers hy s
  rw [Path.metaSequence, hexp, p.flagByte_eq_add hy, Path.flags_of_not_expanded hexp, Nat.zero_add] at hdelivers
  exact ⟨t, byteWidth y, ht, byteWidth_minimalWidth hy, hdelivers, hframe⟩

/-- An expanded path delivers its flags plus the width less one, the count, then the value. -/
theorem Answers.delivers_expanded {f : State → Host.Outcome State Fault Refusal} {p : Path} {e y : Nat}
    (h : Answers f p e y) (hexp : p.expanded = true) (hy : y < 2 ^ 256) (s : State) :
    ∃ t, f s = .next t ∧ MinimalWidth (byteWidth y) y ∧
      Delivers t.out [BitVec.ofNat 8 (p.flags + (byteWidth y - 1)), BitVec.ofNat 8 e] (byteWidth y) y ∧
      t.inputs = s.inputs ∧ t.inFlight = s.inFlight := by
  obtain ⟨t, ht, hdelivers, hframe⟩ := h.delivers hy s
  rw [Path.metaSequence, hexp, p.flagByte_eq_add hy] at hdelivers
  exact ⟨t, ht, byteWidth_minimalWidth hy, hdelivers, hframe⟩

/-! ### Operands as odd multiples of a power of two -/

theorem lt_256_of_mul_two_pow {y e : Nat} (hy : y % 2 = 1) (h : y * 2 ^ e < 2 ^ 256) : e < 256 :=
  lt_256_of_two_pow_mul (n := y) (by omega) (Nat.mul_comm y _ ▸ h)

theorem lsb_mul_two_pow {y e : Nat} (hy : y % 2 = 1) (h : y * 2 ^ e < 2 ^ 256) :
    lsb ((y * 2 ^ e : Nat) : Int) = e := by
  have hsplit : ((y * 2 ^ e : Nat) : Int) = 2 ^ e * y := by push_cast; ring
  rw [hsplit, lsb_two_pow_mul_odd (lt_256_of_mul_two_pow hy h) (by omega)]

theorem lsb_neg_mul_two_pow {y e : Nat} (hy : y % 2 = 1) (h : y * 2 ^ e < 2 ^ 256) :
    lsb (-((y * 2 ^ e : Nat) : Int)) = e := by
  have hsplit : -((y * 2 ^ e : Nat) : Int) = 2 ^ e * -y := by push_cast; ring
  rw [hsplit, lsb_two_pow_mul_odd (lt_256_of_mul_two_pow hy h) (by omega)]

theorem clampedExpansion_eq {i : Int} {e : Nat} (h : lsb i = e) :
    clampedExpansion i = if e ≤ 32 then e else 0 := by
  subst h
  split
  · next hle => exact clampedExpansion_of_le hle
  · next hlt => exact clampedExpansion_of_lt (Nat.not_le.mp hlt)

theorem shiftRightUnsigned_zero (a : Nat) : shiftRightUnsigned a 0 = a := Nat.div_one a

theorem shiftRightUnsigned_mul_two_pow (y e : Nat) : shiftRightUnsigned (y * 2 ^ e) e = y :=
  Nat.mul_div_cancel y (Nat.two_pow_pos e)

/-- What ENC3 stores of a non-negative operand (spec/42_variable_length_encoder.md R130, R131). -/
theorem shiftRightUnsigned_clamped (y e : Nat) :
    shiftRightUnsigned (y * 2 ^ e) (if e ≤ 32 then e else 0) = if e ≤ 32 then y else y * 2 ^ e := by
  split
  · exact shiftRightUnsigned_mul_two_pow y e
  · exact shiftRightUnsigned_zero _

/-- What ENC3 stores of a negative operand (spec/42_variable_length_encoder.md R130, R131). -/
theorem complement_shiftRightSigned_clamped {y e : Nat} (hy : y % 2 = 1) :
    (complement (shiftRightSigned (-((y * 2 ^ e : Nat) : Int)) (if e ≤ 32 then e else 0))).toNat =
      if e ≤ 32 then y - 1 else y * 2 ^ e - 1 := by
  have hpow := Nat.two_pow_pos e
  have hneg : -((y * 2 ^ e : Nat) : Int) < 0 := by
    have hpos : 0 < y * 2 ^ e := Nat.mul_pos (by omega) hpow
    omega
  rw [complement_shiftRightSigned hneg, Int.natAbs_neg, Int.natAbs_natCast, Int.toNat_natCast]
  split
  · obtain ⟨q, rfl⟩ : ∃ q, y = q + 1 := ⟨y - 1, by omega⟩
    rw [Nat.succ_mul, Nat.add_sub_assoc hpow, Nat.mul_comm, Nat.mul_add_div hpow,
      Nat.div_eq_of_lt (Nat.sub_lt hpow Nat.one_pos), Nat.add_zero, Nat.add_sub_cancel]
  · rw [pow_zero, Nat.div_one]

/-- Fewer than 32 trailing zeros are those of 0 and of the operands `2^32` does not divide. -/
theorem lsb_lt_32_of_not_dvd {i : Nat} (hi : i < 2 ^ 256) (h : i = 0 ∨ ¬ 2 ^ 32 ∣ i) : lsb i < 32 := by
  rcases h with rfl | hnot
  · exact lsb_zero ▸ Nat.zero_lt_succ 31
  · by_contra hge
    have hdvd : 2 ^ lsb i ∣ i := Int.natCast_dvd_natCast.mp (two_pow_lsb_dvd hi)
    exact hnot ((Nat.pow_dvd_pow 2 (Nat.not_lt.mp hge)).trans hdvd)

/-- A value below `256^n` needs at most `n` bytes. -/
theorem byteWidth_le_of_lt {y n : Nat} (hn : 1 ≤ n) (h : y < 256 ^ n) : byteWidth y ≤ n := by
  by_cases h0 : y = 0
  · exact h0 ▸ hn
  · have hlt : 256 ^ (byteWidth y - 1) < 256 ^ n := (pow_256_byteWidth_pred_le h0).trans_lt h
    have hexp := (Nat.pow_lt_pow_iff_right (by decide)).mp hlt
    omega

/-- The expanded path of ENC2 stores at most 28 bytes (spec/44_value_serializer.md R156). -/
theorem byteWidth_le_28 {y e : Nat} (he : 32 ≤ e) (h : y * 2 ^ e < 2 ^ 256) : byteWidth y ≤ 28 := by
  refine byteWidth_le_of_lt (by decide) ?_
  have hpow : 2 ^ 32 ≤ 2 ^ e := Nat.pow_le_pow_right two_pos he
  have hmul : y * 2 ^ 32 < 2 ^ 256 := (Nat.mul_le_mul_left y hpow).trans_lt h
  omega

/-! ### The operations -/

/-- Settles O11: the plain path where the checks pass, else the fault response of the check. -/
theorem enc1Behaviour : Obligations.Enc1Behaviour :=
  ⟨fun _ s hi => (exec_enc1_answers hi).delivers_short rfl hi s,
    fun _ s hi => exec_enc1_fault (checkUnsigned_of_outOfRange hi) s,
    fun _ s hneg hi => exec_enc1_fault (checkUnsigned_of_neg hneg hi) s⟩

theorem exec_enc2_answers_mul_two_pow {y e : Nat} (hy : y % 2 = 1) (he : 32 ≤ e) (h : y * 2 ^ e < 2 ^ 256) :
    Answers (exec (.enc2 ((y * 2 ^ e : Nat) : Int))) .trimmed e y := by
  have hlsb := lsb_mul_two_pow hy h
  have hanswers := exec_enc2_answers_trimmed h (hlsb.symm ▸ he)
  rwa [hlsb, shiftRightUnsigned_mul_two_pow] at hanswers

/-- Settles O12: the fallback below 32 trailing zeros, the expanded path from there on, else the fault response. -/
theorem enc2Behaviour : Obligations.Enc2Behaviour := by
  refine ⟨fun i s hi hzeros => ?_, fun y e s hy he h => ?_,
    fun _ s hi => exec_enc2_fault (checkUnsigned_of_outOfRange hi) s,
    fun _ s hneg hi => exec_enc2_fault (checkUnsigned_of_neg hneg hi) s⟩
  · exact (exec_enc2_answers_fallback hi (lsb_lt_32_of_not_dvd hi hzeros)).delivers_short rfl hi s
  · have hlt : y < 2 ^ 256 := (Nat.le_mul_of_pos_right y (Nat.two_pow_pos e)).trans_lt h
    obtain ⟨t, ht, hwidth, hdelivers, hframe⟩ := (exec_enc2_answers_mul_two_pow hy he h).delivers_expanded rfl hlt s
    exact ⟨t, _, ht, hwidth, byteWidth_le_28 he h, hdelivers, hframe⟩

theorem exec_enc3_answers_mul_two_pow {y e : Nat} (hy : y % 2 = 1) (h : y * 2 ^ e < 2 ^ 256) :
    Answers (exec (.enc3 ((y * 2 ^ e : Nat) : Int))) .signedNonNegative (if e ≤ 32 then e else 0)
      (if e ≤ 32 then y else y * 2 ^ e) := by
  have hanswers := exec_enc3_answers_nonneg h
  rwa [clampedExpansion_eq (lsb_mul_two_pow hy h), shiftRightUnsigned_clamped] at hanswers

theorem exec_enc3_answers_neg_mul_two_pow {y e : Nat} (hy : y % 2 = 1) (h : y * 2 ^ e < 2 ^ 256) :
    Answers (exec (.enc3 (-((y * 2 ^ e : Nat) : Int)))) .signedNegative (if e ≤ 32 then e else 0)
      (if e ≤ 32 then y - 1 else y * 2 ^ e - 1) := by
  have hpos : 0 < y * 2 ^ e := Nat.mul_pos (by omega) (Nat.two_pow_pos e)
  have hanswers := exec_enc3_answers_neg (i := -((y * 2 ^ e : Nat) : Int)) (by omega) (by omega)
  rwa [clampedExpansion_eq (lsb_neg_mul_two_pow hy h), complement_shiftRightSigned_clamped hy] at hanswers

theorem exec_enc3_answers_zero : Answers (exec (.enc3 0)) .signedNonNegative 0 0 := by
  have hanswers := exec_enc3_answers_nonneg (i := 0) (Nat.two_pow_pos 256)
  rwa [Nat.cast_zero, clampedExpansion_eq lsb_zero] at hanswers

/-- Settles O13: each sign takes its path with the clamped count, 0 the non-negative one, else the fault response. -/
theorem enc3Behaviour : Obligations.Enc3Behaviour := by
  refine ⟨fun y e s hy h => ?_, fun s => ?_, fun y e s hy h => ?_,
    fun _ s hi => exec_enc3_fault (checkSigned_of_outOfRange hi) s⟩
  · have hle := Nat.le_mul_of_pos_right y (Nat.two_pow_pos e)
    have hlt : (if e ≤ 32 then y else y * 2 ^ e) < 2 ^ 256 := by split <;> omega
    obtain ⟨t, ht, hrest⟩ := (exec_enc3_answers_mul_two_pow hy h).delivers_expanded rfl hlt s
    exact ⟨t, _, ht, hrest⟩
  · obtain ⟨t, ht, -, hrest⟩ := exec_enc3_answers_zero.delivers_expanded rfl (Nat.two_pow_pos 256) s
    exact ⟨t, ht, hrest⟩
  · have hle := Nat.le_mul_of_pos_right y (Nat.two_pow_pos e)
    have hlt : (if e ≤ 32 then y - 1 else y * 2 ^ e - 1) < 2 ^ 256 := by split <;> omega
    obtain ⟨t, ht, hrest⟩ := (exec_enc3_answers_neg_mul_two_pow hy h).delivers_expanded rfl hlt s
    exact ⟨t, _, ht, hrest⟩

end Sys2Proof.Machine
end

section
/-!
PROOFS. The strategies against each other: the fallback of ENC2 is ENC1, the length of ENC3 against that of ENC1, and the
bounds of the stored magnitude (spec/42_variable_length_encoder.md R129, R133, R134).
-/
namespace Sys2Proof.Machine

/-! ### ENC2 below its threshold -/

/-- The two paths in format M1 differ in name only. -/
theorem trimmedComponents_eq_plainComponents {i : Int} (h : lsb i < 32) :
    trimmedComponents i = plainComponents i :=
  trimmedComponents_fallback h

/-- Settles O14: the checks of both operations are the same, and where they pass both emit one record. -/
theorem enc2FallbackIsEnc1 : Obligations.Enc2FallbackIsEnc1 := by
  intro i s h
  cases hcheck : checkUnsigned i with
  | some c => exact ⟨_, exec_enc2_fault hcheck s, exec_enc1_fault hcheck s⟩
  | none =>
    obtain ⟨-, hi⟩ := checkUnsigned_eq_none.mp hcheck
    have hlsb : lsb i < 32 := h.resolve_left (Nat.not_le.mpr hi)
    obtain ⟨r, -, hr⟩ := (plainComponents_fits hi).emit
    refine ⟨s.respond r, execEnc2_eq_next.mpr (.inr ⟨hcheck, ?_⟩), execEnc1_eq_next.mpr (.inr ⟨hcheck, hr s⟩)⟩
    rw [trimmedComponents_eq_plainComponents hlsb, hr s]

/-! ### ENC3 against ENC1 -/

theorem Carries.bytes_drop_meta {r : Response} {p : Path} {e y : Nat} (h : Carries r p e y) :
    r.bytes.drop p.metaBytes = valueSequence y (byteWidth y) := by
  rw [h.bytes_eq, List.drop_left' (p.metaSequence_length e y)]

/-- The count cell tells the count. -/
theorem Carries.count_eq_zero {r : Response} {p : Path} {e y : Nat} (h : Carries r p e y) (he : e < 256)
    (hexp : p.expanded = true) (hcell : r.outByte.get 1 = 0x00) : e = 0 := by
  have hcount := congrArg BitVec.toNat ((h.count_cell hexp).symm.trans hcell)
  rwa [BitVec.toNat_ofNat, Nat.mod_eq_of_lt he] at hcount

theorem signedComponents_natCast_y (i : Nat) :
    (signedComponents i).y = shiftRightUnsigned i (clampedExpansion i) := by
  rw [signedComponents_nonneg (Int.natCast_nonneg i), handOn_y, Int.toNat_natCast]

/-- Settles O16: the lengths are those of the two paths, and with count 0 both store the operand. -/
theorem enc3LengthAgainstEnc1 : Obligations.Enc3LengthAgainstEnc1 := by
  intro i s hi
  obtain ⟨r1, hplain, hr1⟩ := exec_enc1_answers hi
  obtain ⟨r3, hsigned, hr3⟩ := exec_enc3_answers_nonneg hi
  have hlen1 : r1.outLen.toNat = 1 + byteWidth i := hplain.length
  have hlen3 : r3.outLen.toNat = 2 + byteWidth (shiftRightUnsigned i (clampedExpansion i)) := hsigned.length
  refine ⟨s.respond r1, s.respond r3, hr1 s, hr3 s, ?_, fun hcell => ?_⟩
  · rw [signedComponents_natCast_y, State.respond_out, State.respond_out, hlen1, hlen3]
    omega
  · have hcount := hsigned.count_eq_zero (clampedExpansion_lt_256 i) rfl hcell
    rw [hcount, shiftRightUnsigned_zero] at hsigned hlen3
    refine ⟨?_, hsigned.bytes_drop_meta.trans hplain.bytes_drop_meta.symm⟩
    rw [State.respond_out, State.respond_out, hlen1, hlen3]
    omega

/-! ### The stored magnitude -/

theorem trimmedComponents_y_le (i : Nat) : (trimmedComponents i).y ≤ i := by
  rcases Nat.lt_or_ge (lsb i) 32 with hlt | hge
  · rw [trimmedComponents_fallback hlt, handOn_y, Int.toNat_natCast]
  · rw [trimmedComponents_expanded hge, handOn_y, Int.toNat_natCast]
    exact shiftRightUnsigned_le ..

/-- Settles O38: a shift only makes the operand smaller, and the complement of a negative one is a magnitude below its
own. -/
theorem storedMagnitudeFits : Obligations.StoredMagnitudeFits := by
  refine ⟨fun i _ => ⟨rfl, fun hlsb => ?_, trimmedComponents_y_le i, ?_⟩, fun i hneg hi => ?_⟩
  · rw [trimmedComponents_fallback hlsb, handOn_y, Int.toNat_natCast]
  · rw [signedComponents_natCast_y]
    exact shiftRightUnsigned_le ..
  · have hmagnitude := natCast_complement_shiftRightSigned hneg (clampedExpansion i)
    have hlt := complement_shiftRightSigned_lt (clampedExpansion i) hneg
    refine ⟨?_, by omega, by omega⟩
    rw [signedComponents_neg hneg, handOn_y, hmagnitude]

end Sys2Proof.Machine
end

section
/-!
PROOFS. The meta encoder, format by format: the fields of `meta` take separate bits, so `META` adds them up
(spec/43_meta_encoder.md R141, R145).
-/
namespace Sys2Proof.Machine

/-! ### The flags lie in bits 5 and 6 -/

theorem Path.flags_le (p : Path) : p.flags ≤ 0x60 := by cases p <;> decide

theorem Path.flags_shifted (p : Path) : (p.flags / 2 ^ 5) <<< 5 = p.flags := by cases p <;> decide

/-- The width field lies below the flags. -/
theorem Path.or_flags_eq_add (p : Path) {x : Nat} (hx : x < 2 ^ 5) : x ||| p.flags = x + p.flags := by
  have hadd := Nat.shiftLeft_add_eq_or_of_lt hx (p.flags / 2 ^ 5)
  rw [p.flags_shifted] at hadd
  rw [Nat.or_comm, ← hadd, Nat.add_comm]

/-! ### The two formats -/

@[simp] theorem metaEncode_one_byte (w flags e : Nat) : metaEncode w flags false e = (1, w - 1) := rfl

/-- The count lies below the flag byte, and in the flag byte the width lies below the flags. -/
theorem metaEncode_two_bytes (p : Path) {w e : Nat} (hw : w ≤ 32) (he : e < 2 ^ 8) :
    metaEncode w p.flags true e = (2, ((w - 1) + p.flags) * 256 + e) := by
  have hfield : w - 1 < 2 ^ 5 := by omega
  rw [metaEncode, if_pos rfl, ← Nat.shiftLeft_add_eq_or_of_lt he, p.or_flags_eq_add hfield, Nat.shiftLeft_eq]

/-- Settles O34, format by format: with the fields added up, the bounds are those of the largest fields. -/
theorem metaFieldsAreDisjoint : Obligations.MetaFieldsAreDisjoint := by
  intro p w e _ hw he
  cases p.expanded with
  | false =>
    have hbound : w - 1 < 2 ^ (8 * 1) := by omega
    rw [metaEncode_one_byte]
    exact ⟨rfl, rfl, hbound, by omega⟩
  | true =>
    have hflags := p.flags_le
    have hbound : ((w - 1) + p.flags) * 256 + e < 2 ^ (8 * 2) := by omega
    rw [metaEncode_two_bytes p hw (by omega)]
    exact ⟨rfl, rfl, hbound, by omega⟩

end Sys2Proof.Machine
end

section
/-!
PROOFS. The value serialiser: `BE` inside and outside its domain, the widths that keep both of its calls inside, and the
length of the output sequence of each path (spec/44_value_serializer.md R150, R151, R155, R156).
-/
namespace Sys2Proof.Machine

/-! ### Big-endian serialisation -/

theorem beByte_toNat (y n k : Nat) : (beByte y n k).toNat = y / 2 ^ (8 * (n - 1 - k)) % 256 :=
  BitVec.toNat_ofNat ..

theorem bigEndianValue_valueSequence_of_lt {y n : Nat} (hy : y < 2 ^ (8 * n)) :
    bigEndianValue (valueSequence y n) = y := by
  rw [bigEndianValue_valueSequence, pow_256_eq, Nat.mod_eq_of_lt hy]

/-- Outside its contract `BE` has no meaning (spec/44_value_serializer.md R151). -/
theorem be_eq_none {y n : Nat} (hy : 2 ^ (8 * n) ≤ y) : be y n = none :=
  Option.eq_none_iff_forall_ne_some.mpr fun _ hbe =>
    have ⟨⟨_, hlt⟩, _⟩ := be_eq_some.mp hbe
    Nat.not_lt.mpr hy hlt

/-- Settles O35: the bytes are the value sequence, digit by digit in base 256. -/
theorem serialiserIsBigEndian : Obligations.SerialiserIsBigEndian := by
  refine ⟨fun y n hn hy => ?_, fun _ _ _ hy => be_eq_none hy⟩
  refine ⟨valueSequence y n, be_of_domain hn hy, valueSequence_length y n, bigEndianValue_valueSequence_of_lt hy,
    fun k hk => ?_⟩
  rw [valueSequence, beByte_getElem? y n k hk, Option.map_some, beByte_toNat]

/-! ### The widths always suffice -/

theorem EncodeComponents.Fits.in_domain {c : EncodeComponents} (h : c.Fits) :
    beDomain c.metaField c.metaWidth = true ∧ beDomain c.y c.valWidth = true ∧ c.metaWidth + c.valWidth ≤ 34 :=
  ⟨h.metaFits, h.valueFits, h.room⟩

/-- Settles O37: the record of each strategy is one `PACK` can write. -/
theorem widthsAlwaysSuffice : Obligations.WidthsAlwaysSuffice := by
  refine ⟨fun i hi c hc => ?_, fun i hi => (signedComponents_fits hi).in_domain⟩
  rcases List.mem_pair.mp hc with rfl | rfl
  · exact (plainComponents_fits (i := i) hi).in_domain
  · exact (trimmedComponents_fits (i := i) hi).in_domain

/-! ### Output lengths -/

/-- The length on a path is that of its meta bytes and of its value, which has at least one byte. -/
theorem Answers.outLen {f : State → Host.Outcome State Fault Refusal} {p : Path} {e y n : Nat} (h : Answers f p e y)
    (hwidth : byteWidth y ≤ n) (s : State) :
    ∃ t, f s = .next t ∧ t.out.outLen.toNat = p.metaBytes + byteWidth y ∧
      p.metaBytes + 1 ≤ t.out.outLen.toNat ∧ t.out.outLen.toNat ≤ p.metaBytes + n := by
  obtain ⟨r, hcarries, hr⟩ := h
  have hlen : (s.respond r).out.outLen.toNat = p.metaBytes + byteWidth y := hcarries.length
  have hpos := byteWidth_pos y
  exact ⟨s.respond r, hr s, hlen, by omega, by omega⟩

/-- What the expanded path of ENC2 stores needs at most 28 bytes. -/
theorem byteWidth_shiftRightUnsigned_le_28 {i e : Nat} (he : 32 ≤ e) (hi : i < 2 ^ 256) :
    byteWidth (shiftRightUnsigned i e) ≤ 28 :=
  byteWidth_le_28 he ((Nat.div_mul_le_self i (2 ^ e)).trans_lt hi)

/-- ENC3 answers on an expanded path with the magnitude of its record, for either sign. -/
theorem exec_enc3_answers {i : Int} (hi : i.natAbs < 2 ^ 256) :
    ∃ p e, p.metaBytes = 2 ∧ (signedComponents i).y < 2 ^ 256 ∧
      Answers (exec (.enc3 i)) p e (signedComponents i).y := by
  rcases lt_or_ge i 0 with hneg | hpos
  · rw [signedComponents_neg hneg]
    exact ⟨.signedNegative, _, rfl, (complement_shiftRightSigned_lt _ hneg).trans hi, exec_enc3_answers_neg hneg hi⟩
  · lift i to Nat using hpos
    rw [signedComponents_natCast_y]
    exact ⟨.signedNonNegative, _, rfl, (shiftRightUnsigned_le ..).trans_lt hi, exec_enc3_answers_nonneg hi⟩

/-- Settles O17: each operation answers on its path, with the width bound of what that path stores. -/
theorem outputLengths : Obligations.OutputLengths := by
  refine ⟨fun i s hi => ?_, fun i s hi hlsb => ?_, fun i s hi hlsb => ?_, fun i s hi => ?_⟩
  · exact (exec_enc1_answers hi).outLen (byteWidth_le_32 hi) s
  · exact (exec_enc2_answers_fallback hi hlsb).outLen (byteWidth_le_32 hi) s
  · exact (exec_enc2_answers_trimmed hi hlsb).outLen (byteWidth_shiftRightUnsigned_le_28 hlsb hi) s
  · obtain ⟨p, e, hmeta, hy, hanswers⟩ := exec_enc3_answers hi
    have hlengths := hanswers.outLen (byteWidth_le_32 hy) s
    rwa [hmeta] at hlengths

end Sys2Proof.Machine
end

section
/-!
PROOFS. The faults a request reports: which one, what its response carries, and which one ENC3 never reports
(spec/60_exceptions.md R160 to R166).
-/
namespace Sys2Proof.Machine

/-! ### The order of the conditions -/

/-- The conditions in the order of spec/60_exceptions.md R165: each claims the fault response of its cause where the
ones before it fail, and a response that meets none of them reports no fault. -/
theorem portResponse_by_condition (r : Request) :
    if r.sel = 0 then portResponse r = faultResponse .illegalStrategy
    else if r.value.msb = true ∧ r.value.extractLsb' 0 256 = 0 then portResponse r = faultResponse .outOfRange
    else if r.sel ≠ 3 ∧ r.value.msb = true then portResponse r = faultResponse .negativeOperand
    else (portResponse r).outValid = true ∧ (portResponse r).outFault = false ∧ (portResponse r).outCause = 0 := by
  unfold portResponse wrappedPort
  split_ifs
  · rfl
  · rfl
  · rfl
  all_goals exact ⟨rfl, rfl, rfl⟩

/-- Settles O19: serving a request drives the response of the port, whose conditions stand in this order. -/
theorem faultsReportedInOrder : Obligations.FaultsReportedInOrder := fun r s =>
  ⟨s.respond (portResponse r), serve_portResponse r s, rfl, rfl, portResponse_by_condition r⟩

/-! ### The fault response -/

theorem Cause.code_cases (c : Cause) : c.code = 1 ∨ c.code = 2 ∨ c.code = 3 := by cases c <;> decide

/-- Of the legal responses only the fault responses show `out_fault`. -/
theorem LegalResponse.eq_faultResponse {r : Response} (h : LegalResponse r) (hfault : r.outFault = true) :
    ∃ c, r = faultResponse c := by
  rcases h with rfl | hc | hnormal
  · exact absurd hfault Bool.false_ne_true
  · exact hc
  · exact absurd (hnormal.no_fault.symm.trans hfault) Bool.false_ne_true

/-- Every cell of a buffer in which nothing is listed reads 0x00. -/
theorem Memory.read_nil {k : Nat} (hk : k < 34) : Memory.read [] k = some 0x00 := Memory.read_of_lt [] hk

/-- Settles O20: a served request changes the response only, and a legal response with `out_fault` is that of a
cause. -/
theorem faultResponseCarriesNoBytes : Obligations.FaultResponseCarriesNoBytes := by
  intro q s t ht hfault
  obtain ⟨c, hc⟩ := LegalResponse.eq_faultResponse (serve_legal ht) hfault
  obtain ⟨r, -, hr⟩ := serve_responds q
  obtain rfl : s.respond r = t := Host.Outcome.next.inj ((hr s).symm.trans ht)
  obtain rfl : r = faultResponse c := hc
  exact ⟨rfl, c.code_cases, rfl, fun _ hk => Memory.read_nil hk, rfl, rfl⟩

/-! ### ENC3 and the sign -/

/-- Settles O21: the only fault of ENC3 is `OutOfRange`, and an operand in range of either sign takes a path. -/
theorem enc3NeverRejectsASign : Obligations.Enc3NeverRejectsASign := by
  intro i s
  rcases Nat.lt_or_ge i.natAbs (2 ^ 256) with hi | hi
  · obtain ⟨p, e, -, -, r, hcarries, hr⟩ := exec_enc3_answers hi
    have hcause : (s.respond r).out.outCause = 0 := hcarries.no_cause
    exact ⟨s.respond r, hr s, hcause.trans_ne (by decide)⟩
  · exact ⟨_, exec_enc3_fault (checkSigned_of_outOfRange hi) s, show Cause.outOfRange.code ≠ 2 by decide⟩

end Sys2Proof.Machine
end

section
/-!
PROOFS. Reset: a cycle with `rst` asserted empties the pipeline and shows the idle response, the run after it is that of
a block with nothing in flight, and every build starts with an empty pipeline and all response ports at 0
(spec/70_reset_and_hazards.md R180, R181, R182).
-/
namespace Sys2Proof.Machine

/-! ### Requests in flight at reset -/

/-- In a build that holds requests in flight, the cycle with `rst` asserted is a reset cycle, whatever is presented. -/
theorem cycle_of_rst {x : Inputs} {s : State} (hrst : x.rst = true) (hflight : s.inFlight ≠ []) :
    cycle x s = .next (s.drive x).resetCycle :=
  step_eq_next.mpr (.inl ⟨(State.resetActive_eq_true _).mpr ⟨hrst, hflight⟩, rfl⟩)

/-- What an unreset block answers after a reset cycle: as many empty slots as it has, then what the caller presents. -/
theorem queue_resetCycle (s : State) (xs : List Inputs) :
    s.resetCycle.queue xs = List.replicate s.inFlight.length none ++ xs.map Inputs.request := rfl

/-- Settles O24: the reset cycle empties every slot, and the run after it answers the queue in order. -/
theorem resetDropsRequestsInFlight : Obligations.ResetDropsRequestsInFlight := by
  intro x xs s hrst hflight hquiet
  have hrun : NeverReset xs (s.drive x).resetCycle := .inl hquiet
  obtain ⟨rs, hrest, hlen, hslots⟩ := responses_of_neverReset hrun
  refine ⟨rs, responses_cons (cycle_of_rst hrst hflight) hrest, hlen, fun k hk => ?_⟩
  obtain ⟨slot, r, hslot, hr, hanswer, -⟩ := hslots k hk
  rw [queue_resetCycle, State.drive_inFlight] at hslot
  exact ⟨slot, r, hslot, hr, hanswer⟩

/-! ### The state after reset -/

/-- Settles O25: every slot is a copy of the empty one, and the ports show the idle response. -/
theorem resetLeavesBlockIdle : Obligations.ResetLeavesBlockIdle :=
  ⟨rfl, fun _ => ⟨List.length_replicate, fun _ => List.eq_of_mem_replicate, rfl, rfl, rfl, rfl,
    fun _ hk => Memory.read_nil hk⟩⟩

end Sys2Proof.Machine
end
